-- ==== Sys2Proof/Word.lean ====
section
/-! DEFINITION. Sys2Proof/Word.lean: the widths of the CHIP-8 core (00_scope.md R6, 30_encoding.md R90, R91). -/

namespace Sys2Proof

/-- A memory cell, a general register, a timer, an immediate kk (R6, R21, R60). -/
abbrev Byte := BitVec 8

/-- An opcode, PC, I, a stack slot (R6, R90). -/
abbrev Word := BitVec 16

/-- One of the four parts of an opcode (R90), and the row count n of Dxyn (R91). -/
abbrev Nibble := BitVec 4

/-- The field nnn (R91). -/
abbrev Addr := BitVec 12

/-- The index of a register V0..VF: "every index 0x0 to 0xF names a register" (R21). -/
abbrev Reg := Fin 16

/-- VF, V[15] (R22). -/
abbrev Reg.vf : Reg := 15

/-- The key levels Key[0..15], true meaning pressed (R40). -/
abbrev Keys := Vector Bool 16

end Sys2Proof
end

