-- ==== Sys2Proof/Config.lean ====
section
/-! DEFINITION. Sys2Proof/Config.lean: what the spec leaves to the implementation (the parameters of 00_scope.md R7)
and the free values (10_state.md R40, R41, R45). The defaults of the parameters stand in Machine/Defaults.lean. -/

namespace Sys2Proof

/-- `P_FONT_INDEX`: which bits of Vx select the glyph of Fx29 (R7, R203). -/
inductive FontIndex where
  | lowNibble
  | fullByte
deriving DecidableEq, Repr

/-- The named parameters of R7. The spec calls each "a named parameter the model takes as an argument"; State carries
them (assumption log 4), so that a statement about every state holds for every value of them. -/
structure Params where
  /-- `P_BNNN_ADDS_V0`: whether Bnnn adds V0 to its target (R144). -/
  bnnnAddsV0 : Bool
  /-- `P_SUB_EQUAL_FLAG`: the VF that 8xy5 and 8xy7 write for equal operands, true meaning 1 (R179, R181). -/
  subEqualFlag : Bool
  /-- `P_LOGIC_RESETS_VF`: whether 8xy1, 8xy2 and 8xy3 also write VF <- 0 (R175 to R177). -/
  logicResetsVf : Bool
  /-- `P_FONT_INDEX` (R203). -/
  fontIndex : FontIndex
  /-- `P_LDST_INCREMENTS_I`: whether Fx55 and Fx65 leave I = I + x + 1 (R205, R206). -/
  ldstIncrementsI : Bool
  /-- `P_TICKS_WHILE_BLOCKED`: whether ticks are taken while the engine is BLOCKED (R258). -/
  ticksWhileBlocked : Bool
  /-- `P_QUIT_OPCODES`: the words that act as the explicit QUIT (R126); only membership is ever asked. -/
  quitOpcodes : List Word
  /-- `P_FONT`: the glyph bytes at 0x000 to 0x04F (R64). -/
  font : Vector Byte 80
deriving DecidableEq, Repr

/-- The three agents that can step (R45). -/
inductive Agent where
  | engine
  | timer
  | host
deriving DecidableEq, Repr, Inhabited

/-- FREE VALUE. The agent of the n-th step drawn after the scheduled inputs have run out: "the steps interleave in an order
the host chooses" (R45), and "a model must allow every interleaving" (60_exceptions.md R288). It has no body (assumption
log 2). -/
opaque Config.freeAgent : Nat → Agent

/-- FREE VALUE. The n-th key sample drawn after the scheduled inputs have run out: "one fresh sample, a draw that the
host supplies with the step" (R40). It has no body, so a proof holds for every value (assumption log 3). -/
opaque Config.freeKeys : Nat → Keys

/-- FREE VALUE. The n-th random byte drawn after the scheduled inputs have run out: "a free input under no law" (R41).
It has no body (assumption log 3). -/
opaque Config.freeRand : Nat → Byte

end Sys2Proof
end

