-- ==== Sys2Proof/Machine/Defaults.lean ====
section
/-! DEFINITION. Sys2Proof/Machine/Defaults.lean: the default of every parameter, as 00_scope.md R7 and the font table of
20_memory.md R64 give it (assumption logs 4 and 7). -/

namespace Sys2Proof

/-- Glyphs 0 to 3 (R64): glyph 0 is the source's own, the others are general knowledge. -/
def defaultGlyphs0to3 : List Byte :=
  [0xF0, 0x90, 0x90, 0x90, 0xF0,  0x20, 0x60, 0x20, 0x20, 0x70,
   0xF0, 0x10, 0xF0, 0x80, 0xF0,  0xF0, 0x10, 0xF0, 0x10, 0xF0]

/-- Glyphs 4 to 7 (R64). -/
def defaultGlyphs4to7 : List Byte :=
  [0x90, 0x90, 0xF0, 0x10, 0x10,  0xF0, 0x80, 0xF0, 0x10, 0xF0,
   0xF0, 0x80, 0xF0, 0x90, 0xF0,  0xF0, 0x10, 0x20, 0x40, 0x40]

/-- Glyphs 8 to B (R64). -/
def defaultGlyphs8toB : List Byte :=
  [0xF0, 0x90, 0xF0, 0x90, 0xF0,  0xF0, 0x90, 0xF0, 0x10, 0xF0,
   0xF0, 0x90, 0xF0, 0x90, 0x90,  0xE0, 0x90, 0xE0, 0x90, 0xE0]

/-- Glyphs C to F (R64). -/
def defaultGlyphsCtoF : List Byte :=
  [0xF0, 0x80, 0x80, 0x80, 0xF0,  0xE0, 0x90, 0x90, 0x90, 0xE0,
   0xF0, 0x80, 0xF0, 0x80, 0xF0,  0xF0, 0x80, 0xF0, 0x80, 0x80]

/-- The default of `P_FONT` (R64). -/
def defaultFont : Vector Byte 80 :=
  ⟨(defaultGlyphs0to3 ++ defaultGlyphs4to7 ++ defaultGlyphs8toB ++ defaultGlyphsCtoF).toArray, rfl⟩

/-- The defaults of R7. -/
def Params.default : Params where
  bnnnAddsV0 := false
  subEqualFlag := true
  logicResetsVf := false
  fontIndex := .lowNibble
  ldstIncrementsI := false
  ticksWhileBlocked := false
  quitOpcodes := [0x00FD]
  font := defaultFont

end Sys2Proof
end

