-- ==== Sys2Proof/Syntax.lean ====
section
/-! DEFINITION. Sys2Proof/Syntax.lean: the instructions, one constructor per row of spec/opcode_table.json
(30_encoding.md R95; QUIT is 40_engine.md R126). -/

namespace Sys2Proof

inductive Instr where
  /-- 0nnn, SYS nnn: the legacy no-op (R125). -/
  | sys (nnn : Addr)
  /-- 00E0, CLS (R230). -/
  | cls
  /-- 00EE, RET (R141). -/
  | ret
  /-- QUIT, a member `op` of `P_QUIT_OPCODES` (R126). The halt record keeps the word, so the syntax does. -/
  | quit (op : Word)
  /-- 1nnn, JP nnn (R142). -/
  | jp (nnn : Addr)
  /-- 2nnn, CALL nnn (R143). -/
  | call (nnn : Addr)
  /-- 3xkk, SE Vx, kk (R146). -/
  | seVxKk (x : Reg) (kk : Byte)
  /-- 4xkk, SNE Vx, kk (R147). -/
  | sneVxKk (x : Reg) (kk : Byte)
  /-- 5xy0, SE Vx, Vy (R148). -/
  | seVxVy (x y : Reg)
  /-- 6xkk, LD Vx, kk (R172). -/
  | ldVxKk (x : Reg) (kk : Byte)
  /-- 7xkk, ADD Vx, kk (R173). -/
  | addVxKk (x : Reg) (kk : Byte)
  /-- 8xy0, LD Vx, Vy (R174). -/
  | ldVxVy (x y : Reg)
  /-- 8xy1, OR Vx, Vy (R175). -/
  | orVxVy (x y : Reg)
  /-- 8xy2, AND Vx, Vy (R176). -/
  | andVxVy (x y : Reg)
  /-- 8xy3, XOR Vx, Vy (R177). -/
  | xorVxVy (x y : Reg)
  /-- 8xy4, ADD Vx, Vy (R178). -/
  | addVxVy (x y : Reg)
  /-- 8xy5, SUB Vx, Vy (R179). -/
  | subVxVy (x y : Reg)
  /-- 8xy6, SHR Vx; the y field is ignored but encoded (R180). -/
  | shrVx (x y : Reg)
  /-- 8xy7, SUBN Vx, Vy (R181). -/
  | subnVxVy (x y : Reg)
  /-- 8xyE, SHL Vx; the y field is ignored but encoded (R182). -/
  | shlVx (x y : Reg)
  /-- 9xy0, SNE Vx, Vy (R149). -/
  | sneVxVy (x y : Reg)
  /-- Annn, LD I, nnn (R201). -/
  | ldI (nnn : Addr)
  /-- Bnnn, JP V0, nnn (R144). -/
  | jpV0 (nnn : Addr)
  /-- Cxkk, RND Vx, kk (R183). -/
  | rndVxKk (x : Reg) (kk : Byte)
  /-- Dxyn, DRW Vx, Vy, n (R232). -/
  | drw (x y : Reg) (n : Nibble)
  /-- Ex9E, SKP Vx (R251). -/
  | skpVx (x : Reg)
  /-- ExA1, SKNP Vx (R252). -/
  | sknpVx (x : Reg)
  /-- Fx07, LD Vx, DT (R255). -/
  | ldVxDt (x : Reg)
  /-- Fx0A, LD Vx, K: the key wait (R253). -/
  | ldVxK (x : Reg)
  /-- Fx15, LD DT, Vx (R256). -/
  | ldDtVx (x : Reg)
  /-- Fx18, LD ST, Vx (R257). -/
  | ldStVx (x : Reg)
  /-- Fx1E, ADD I, Vx (R202). -/
  | addIVx (x : Reg)
  /-- Fx29, LD F, Vx: the address of a glyph (R203). -/
  | ldFVx (x : Reg)
  /-- Fx33, LD B, Vx: the BCD store (R204). -/
  | ldBVx (x : Reg)
  /-- Fx55, LD [I], Vx: the register dump (R205). -/
  | ldMemVx (x : Reg)
  /-- Fx65, LD Vx, [I]: the register load (R206). -/
  | ldVxMem (x : Reg)
deriving DecidableEq, Repr

end Sys2Proof
end

