-- ==== Sys2Proof/WellFormed.lean ====
section
/-! DEFINITION. Sys2Proof/WellFormed.lean: which instruction terms are forms of the opcode map, given the set
`P_QUIT_OPCODES` (30_encoding.md R93, R95, R97). Every operand field is as wide as its encoding by its type, and "every
value 0x0..0xF is a valid register" (R92), so only the two forms that share the a = 0 words need a check. -/

namespace Sys2Proof

/-- The two exact words that come first in decoding (R93, precedence 1). -/
abbrev exactWords : List Word := [0x00E0, 0x00EE]

/-- The word of 0nnn (R97). -/
def sysWord (nnn : Addr) : Word := nnn.setWidth 16

/-- SYS nnn stands for the a = 0 words that 00E0, 00EE and the members of `P_QUIT_OPCODES` do not take (R97), and QUIT
for the members of `P_QUIT_OPCODES` that are not 00E0 or 00EE (R93, precedence 1). -/
def Instr.wf (quit : List Word) : Instr → Bool
  | .sys nnn => !exactWords.contains (sysWord nnn) && !quit.contains (sysWord nnn)
  | .quit op => quit.contains op && !exactWords.contains op
  | .cls | .ret | .jp _ | .call _ | .seVxKk _ _ | .sneVxKk _ _ | .seVxVy _ _ | .ldVxKk _ _ | .addVxKk _ _
  | .ldVxVy _ _ | .orVxVy _ _ | .andVxVy _ _ | .xorVxVy _ _ | .addVxVy _ _ | .subVxVy _ _ | .shrVx _ _
  | .subnVxVy _ _ | .shlVx _ _ | .sneVxVy _ _ | .ldI _ | .jpV0 _ | .rndVxKk _ _ | .drw _ _ _ | .skpVx _
  | .sknpVx _ | .ldVxDt _ | .ldVxK _ | .ldDtVx _ | .ldStVx _ | .addIVx _ | .ldFVx _ | .ldBVx _ | .ldMemVx _
  | .ldVxMem _ => true

end Sys2Proof
end

