-- ==== Sys2Proof/Decode.lean ====
section
/-! DEFINITION. Sys2Proof/Decode.lean: the decoder (30_encoding.md R90 to R98, total on any bytes) and after it the
encoder, both written from the table of R95. -/

namespace Sys2Proof

/-- Why bytes are no instruction. -/
inductive DecodeError where
  /-- Fewer than two bytes: "Every instruction is exactly 2 bytes" (R98). -/
  | truncated
  /-- A word that matches no row (R96); executing it raises UnimplementedOpcode (R127). -/
  | unimplementedOpcode (op : Word)
deriving DecidableEq, Repr

/-! ### The fields of R90 and R91 -/

/-- op[15:12], the major opcode. -/
def fieldA (op : Word) : Nibble := op.extractLsb' 12 4
/-- op[11:8]. -/
def fieldX (op : Word) : Reg := (op.extractLsb' 8 4).toFin
/-- op[7:4]. -/
def fieldY (op : Word) : Reg := (op.extractLsb' 4 4).toFin
/-- op[3:0]. -/
def fieldN (op : Word) : Nibble := op.extractLsb' 0 4
/-- op[7:0]. -/
def fieldKk (op : Word) : Byte := op.extractLsb' 0 8
/-- op[11:0]. -/
def fieldNnn (op : Word) : Addr := op.extractLsb' 0 12

/-! ### Decoding -/

/-- The rows 8xy0 to 8xyE (R95 rows 11 to 19). -/
def decodeAlu (op : Word) : Except DecodeError Instr :=
  match fieldN op with
  | 0x0#4 => .ok (.ldVxVy (fieldX op) (fieldY op))
  | 0x1#4 => .ok (.orVxVy (fieldX op) (fieldY op))
  | 0x2#4 => .ok (.andVxVy (fieldX op) (fieldY op))
  | 0x3#4 => .ok (.xorVxVy (fieldX op) (fieldY op))
  | 0x4#4 => .ok (.addVxVy (fieldX op) (fieldY op))
  | 0x5#4 => .ok (.subVxVy (fieldX op) (fieldY op))
  | 0x6#4 => .ok (.shrVx (fieldX op) (fieldY op))
  | 0x7#4 => .ok (.subnVxVy (fieldX op) (fieldY op))
  | 0xE#4 => .ok (.shlVx (fieldX op) (fieldY op))
  | _ => .error (.unimplementedOpcode op)

/-- The rows Ex9E and ExA1 (R95 rows 25, 26). -/
def decodeKey (op : Word) : Except DecodeError Instr :=
  match fieldKk op with
  | 0x9E#8 => .ok (.skpVx (fieldX op))
  | 0xA1#8 => .ok (.sknpVx (fieldX op))
  | _ => .error (.unimplementedOpcode op)

/-- The rows Fx07 to Fx65 (R95 rows 27 to 35). -/
def decodeMisc (op : Word) : Except DecodeError Instr :=
  match fieldKk op with
  | 0x07#8 => .ok (.ldVxDt (fieldX op))
  | 0x0A#8 => .ok (.ldVxK (fieldX op))
  | 0x15#8 => .ok (.ldDtVx (fieldX op))
  | 0x18#8 => .ok (.ldStVx (fieldX op))
  | 0x1E#8 => .ok (.addIVx (fieldX op))
  | 0x29#8 => .ok (.ldFVx (fieldX op))
  | 0x33#8 => .ok (.ldBVx (fieldX op))
  | 0x55#8 => .ok (.ldMemVx (fieldX op))
  | 0x65#8 => .ok (.ldVxMem (fieldX op))
  | _ => .error (.unimplementedOpcode op)

/-- Precedences 2 to 4 of R93: every a = 0 word is SYS, then the patterns, each matched on every fixed nibble, then
UnimplementedOpcode. -/
def decodePattern (op : Word) : Except DecodeError Instr :=
  match fieldA op with
  | 0x0#4 => .ok (.sys (fieldNnn op))
  | 0x1#4 => .ok (.jp (fieldNnn op))
  | 0x2#4 => .ok (.call (fieldNnn op))
  | 0x3#4 => .ok (.seVxKk (fieldX op) (fieldKk op))
  | 0x4#4 => .ok (.sneVxKk (fieldX op) (fieldKk op))
  | 0x5#4 => if fieldN op = 0 then .ok (.seVxVy (fieldX op) (fieldY op)) else .error (.unimplementedOpcode op)
  | 0x6#4 => .ok (.ldVxKk (fieldX op) (fieldKk op))
  | 0x7#4 => .ok (.addVxKk (fieldX op) (fieldKk op))
  | 0x8#4 => decodeAlu op
  | 0x9#4 => if fieldN op = 0 then .ok (.sneVxVy (fieldX op) (fieldY op)) else .error (.unimplementedOpcode op)
  | 0xA#4 => .ok (.ldI (fieldNnn op))
  | 0xB#4 => .ok (.jpV0 (fieldNnn op))
  | 0xC#4 => .ok (.rndVxKk (fieldX op) (fieldKk op))
  | 0xD#4 => .ok (.drw (fieldX op) (fieldY op) (fieldN op))
  | 0xE#4 => decodeKey op
  | 0xF#4 => decodeMisc op
  | _ => .error (.unimplementedOpcode op)

/-- "Decode is a total function from a 16-bit word" (R93): the exact words 00E0 and 00EE, then the members of
`P_QUIT_OPCODES` (precedence 1), then the rest. -/
def decodeWord (quit : List Word) (op : Word) : Except DecodeError Instr :=
  if op = 0x00E0 then .ok .cls
  else if op = 0x00EE then .ok .ret
  else if quit.contains op then .ok (.quit op)
  else decodePattern op

/-- The word of two bytes, "big-endian: the byte at the lower address is the high byte of the opcode" (R69). -/
def wordOfBytes (hi lo : Byte) : Word := BitVec.ofNat 16 (hi.toNat * 0x100 + lo.toNat)
/-- op[15:8], the byte at the lower address (R67). -/
def highByte (op : Word) : Byte := op.extractLsb' 8 8
/-- op[7:0], the byte at the higher address (R67). -/
def lowByte (op : Word) : Byte := op.extractLsb' 0 8

/-- The instruction at the head of a list of bytes, and the bytes after it (R98). -/
def decode (quit : List Word) : List Byte → Except DecodeError (Instr × List Byte)
  | hi :: lo :: rest =>
    match decodeWord quit (wordOfBytes hi lo) with
    | .ok i => .ok (i, rest)
    | .error e => .error e
  | _ => .error .truncated

/-- The host's way in: the instruction the decoder reads, under the default parameters, from the word `w` of `nbits` bits
(one 16-bit word, R98), laid out as the hardware stores it. -/
def decodeTableWord (nbits w : Nat) : Option Instr :=
  let op : Word := BitVec.ofNat 16 (w % 2 ^ nbits)
  match decode Params.default.quitOpcodes [highByte op, lowByte op] with
  | .ok (i, _) => some i
  | .error _ => none

/-! ### Encoding -/

/-- The pattern annn. -/
def wordNnn (a : Nat) (nnn : Addr) : Word := BitVec.ofNat 16 (a * 0x1000 + nnn.toNat)
/-- The pattern axkk. -/
def wordXkk (a : Nat) (x : Reg) (kk : Byte) : Word := BitVec.ofNat 16 (a * 0x1000 + x.val * 0x100 + kk.toNat)
/-- The pattern axyn. -/
def wordXyn (a : Nat) (x y : Reg) (n : Nibble) : Word :=
  BitVec.ofNat 16 (a * 0x1000 + x.val * 0x100 + y.val * 0x10 + n.toNat)

/-- The word of an instruction: its pattern of R95 with the operands in their fields. -/
def encode : Instr → Word
  | .sys nnn => wordNnn 0x0 nnn
  | .cls => 0x00E0
  | .ret => 0x00EE
  | .quit op => op
  | .jp nnn => wordNnn 0x1 nnn
  | .call nnn => wordNnn 0x2 nnn
  | .seVxKk x kk => wordXkk 0x3 x kk
  | .sneVxKk x kk => wordXkk 0x4 x kk
  | .seVxVy x y => wordXyn 0x5 x y 0x0
  | .ldVxKk x kk => wordXkk 0x6 x kk
  | .addVxKk x kk => wordXkk 0x7 x kk
  | .ldVxVy x y => wordXyn 0x8 x y 0x0
  | .orVxVy x y => wordXyn 0x8 x y 0x1
  | .andVxVy x y => wordXyn 0x8 x y 0x2
  | .xorVxVy x y => wordXyn 0x8 x y 0x3
  | .addVxVy x y => wordXyn 0x8 x y 0x4
  | .subVxVy x y => wordXyn 0x8 x y 0x5
  | .shrVx x y => wordXyn 0x8 x y 0x6
  | .subnVxVy x y => wordXyn 0x8 x y 0x7
  | .shlVx x y => wordXyn 0x8 x y 0xE
  | .sneVxVy x y => wordXyn 0x9 x y 0x0
  | .ldI nnn => wordNnn 0xA nnn
  | .jpV0 nnn => wordNnn 0xB nnn
  | .rndVxKk x kk => wordXkk 0xC x kk
  | .drw x y n => wordXyn 0xD x y n
  | .skpVx x => wordXkk 0xE x 0x9E
  | .sknpVx x => wordXkk 0xE x 0xA1
  | .ldVxDt x => wordXkk 0xF x 0x07
  | .ldVxK x => wordXkk 0xF x 0x0A
  | .ldDtVx x => wordXkk 0xF x 0x15
  | .ldStVx x => wordXkk 0xF x 0x18
  | .addIVx x => wordXkk 0xF x 0x1E
  | .ldFVx x => wordXkk 0xF x 0x29
  | .ldBVx x => wordXkk 0xF x 0x33
  | .ldMemVx x => wordXkk 0xF x 0x55
  | .ldVxMem x => wordXkk 0xF x 0x65

/-- The two bytes of an instruction, high byte first (R69). -/
def encodeBytes (i : Instr) : List Byte := [highByte (encode i), lowByte (encode i)]

/-- Whether a term is the instruction its own word stands for: it is well formed, and its word is not taken by the
precedence of the members of `P_QUIT_OPCODES` (R93; assumption log 13). -/
def Instr.ownsWord (quit : List Word) (i : Instr) : Bool :=
  i.wf quit && (exactWords.contains (encode i) || !quit.contains (encode i) || i == .quit (encode i))

/-! ### The rows of the opcode table -/

/-- A row of R95: "a word w matches a row when `(w & mask) == match`". -/
structure OpRow where
  fixed : Word
  mask : Word
deriving DecidableEq, Repr

/-- The row's test. -/
def OpRow.matches (r : OpRow) (w : Word) : Bool := w &&& r.mask == r.fixed

/-- The row of R95 an instruction belongs to; QUIT's row is its own word (opcode_table.json, "Parameter row"). -/
def Instr.row : Instr → OpRow
  | .sys _ => ⟨0x0000, 0xF000⟩
  | .cls => ⟨0x00E0, 0xFFFF⟩
  | .ret => ⟨0x00EE, 0xFFFF⟩
  | .quit op => ⟨op, 0xFFFF⟩
  | .jp _ => ⟨0x1000, 0xF000⟩
  | .call _ => ⟨0x2000, 0xF000⟩
  | .seVxKk _ _ => ⟨0x3000, 0xF000⟩
  | .sneVxKk _ _ => ⟨0x4000, 0xF000⟩
  | .seVxVy _ _ => ⟨0x5000, 0xF00F⟩
  | .ldVxKk _ _ => ⟨0x6000, 0xF000⟩
  | .addVxKk _ _ => ⟨0x7000, 0xF000⟩
  | .ldVxVy _ _ => ⟨0x8000, 0xF00F⟩
  | .orVxVy _ _ => ⟨0x8001, 0xF00F⟩
  | .andVxVy _ _ => ⟨0x8002, 0xF00F⟩
  | .xorVxVy _ _ => ⟨0x8003, 0xF00F⟩
  | .addVxVy _ _ => ⟨0x8004, 0xF00F⟩
  | .subVxVy _ _ => ⟨0x8005, 0xF00F⟩
  | .shrVx _ _ => ⟨0x8006, 0xF00F⟩
  | .subnVxVy _ _ => ⟨0x8007, 0xF00F⟩
  | .shlVx _ _ => ⟨0x800E, 0xF00F⟩
  | .sneVxVy _ _ => ⟨0x9000, 0xF00F⟩
  | .ldI _ => ⟨0xA000, 0xF000⟩
  | .jpV0 _ => ⟨0xB000, 0xF000⟩
  | .rndVxKk _ _ => ⟨0xC000, 0xF000⟩
  | .drw _ _ _ => ⟨0xD000, 0xF000⟩
  | .skpVx _ => ⟨0xE09E, 0xF0FF⟩
  | .sknpVx _ => ⟨0xE0A1, 0xF0FF⟩
  | .ldVxDt _ => ⟨0xF007, 0xF0FF⟩
  | .ldVxK _ => ⟨0xF00A, 0xF0FF⟩
  | .ldDtVx _ => ⟨0xF015, 0xF0FF⟩
  | .ldStVx _ => ⟨0xF018, 0xF0FF⟩
  | .addIVx _ => ⟨0xF01E, 0xF0FF⟩
  | .ldFVx _ => ⟨0xF029, 0xF0FF⟩
  | .ldBVx _ => ⟨0xF033, 0xF0FF⟩
  | .ldMemVx _ => ⟨0xF055, 0xF0FF⟩
  | .ldVxMem _ => ⟨0xF065, 0xF0FF⟩

/-- The rows with the patterns a = 1 to F (R95 rows 4 to 35), in the table's order. -/
def patternRows : List OpRow :=
  [.jp 0, .call 0, .seVxKk 0 0, .sneVxKk 0 0, .seVxVy 0 0, .ldVxKk 0 0, .addVxKk 0 0].map Instr.row
  ++ [.ldVxVy 0 0, .orVxVy 0 0, .andVxVy 0 0, .xorVxVy 0 0, .addVxVy 0 0, .subVxVy 0 0, .shrVx 0 0,
      .subnVxVy 0 0, .shlVx 0 0].map Instr.row
  ++ [.sneVxVy 0 0, .ldI 0, .jpV0 0, .rndVxKk 0 0, .drw 0 0 0, .skpVx 0, .sknpVx 0].map Instr.row
  ++ [.ldVxDt 0, .ldVxK 0, .ldDtVx 0, .ldStVx 0, .addIVx 0, .ldFVx 0, .ldBVx 0, .ldMemVx 0, .ldVxMem 0].map Instr.row

end Sys2Proof
end

