-- ==== Sys2Proof/Machine/State.lean ====
section
/-! DEFINITION. Sys2Proof/Machine/State.lean: the state of the core (10_state.md R20 to R32), its ports (R40 to R48) as
plain data, and the reasons a step can stop. -/

namespace Sys2Proof.Machine

/-- The kind of an OutOfBoundsAccess (10_state.md R30). -/
inductive AccessKind where
  | fetch
  | read
  | write
  | stackOverflow
  | stackUnderflow
  | keyIndex
deriving DecidableEq, Repr

/-- The reason of a halt (R30, 60_exceptions.md R280). -/
inductive HaltReason where
  | loadError
  | unimplementedOpcode
  | quit
  | outOfBoundsAccess (kind : AccessKind)
  | cancelled
deriving DecidableEq, Repr

/-- The halt record: "`reason`, plus `addr` and `opcode` where they apply" (R30). -/
structure HaltRecord where
  reason : HaltReason
  /-- the instruction address a0 of the faulting instruction -/
  addr : Option Word
  /-- the 16-bit word, when the fetch completed -/
  opcode : Option Word
deriving DecidableEq, Repr

/-- The run state of the engine (R29). -/
inductive Run where
  /-- the next engine step fetches an instruction -/
  | running
  /-- the engine is executing Fx0A with x = r and waits for a key -/
  | blocked (r : Reg)
  /-- a fatal error or a cancel has ended execution -/
  | halted (h : HaltRecord)
deriving DecidableEq, Repr

/-- What the host has in store for one step: whose turn it is, and what it supplies with it (R40, R41, R43, R45, R46;
assumption log 2). -/
inductive Input where
  /-- an engine step, with its key sample and its random byte (R120) -/
  | engine (keys : Keys) (rand : Byte)
  /-- a tick offered to the timer (R43) -/
  | tick
  /-- the host's quit signal (R46) -/
  | cancel
deriving DecidableEq, Repr

/-- FB[col][row], "64×32 boolean grid, origin top-left", true meaning on (R28). -/
abbrev FrameBuffer := Vector (Vector Bool 32) 64

/-- The framebuffer with all pixels off (R32, R230). -/
def FrameBuffer.clear : FrameBuffer := .replicate 64 (.replicate 32 false)

structure State where
  /-- Mem, in canonical form: see Memory.wf in Machine/Ops.lean (20_memory.md R60; assumption log 12) -/
  mem : List Host.Cell
  /-- V0..VF (R21) -/
  v : Vector Byte 16
  /-- I (R23) -/
  i : Word
  /-- PC (R24) -/
  pc : Word
  /-- Stack[0..15] (R25) -/
  stack : Vector Word 16
  /-- SP, the depth, 0 to 16 (R25) -/
  sp : Fin 17
  /-- DT (R26) -/
  dt : Byte
  /-- ST (R27) -/
  st : Byte
  /-- FB (R28) -/
  fb : FrameBuffer
  /-- Run (R29) -/
  run : Run
  /-- the parameters of 00_scope.md R7, changed by no step (assumption log 4) -/
  params : Params
  /-- MODEL'S OWN: what the host has in store, oldest first (assumption log 2) -/
  inputs : List Input
  /-- MODEL'S OWN: how many free steps have been drawn after `inputs` ran out (assumption logs 2, 3) -/
  draws : Nat
  /-- the key sample of the present engine step, a port and no core state (R40; assumption log 17) -/
  keyIn : Keys
  /-- the random byte of the present engine step, a port and no core state (R41; assumption log 17) -/
  randIn : Byte
  /-- the Present strobe of the last step, a port (R42; assumption log 8) -/
  present : Bool
deriving DecidableEq, Repr

/-- Why `step` answers no next state. The fatal errors of the spec are not here: they are next states with
Run = HALTED(h), as R285 describes them (assumption log 1). -/
inductive Fault where
  /-- Raised by `step` alone, in a state with Run = HALTED(h): "no engine, tick or host step is enabled, and the state
  never changes again" (R284). Safe: the run has ended there (R326). -/
  | noStepEnabled (h : HaltRecord)
deriving DecidableEq, Repr

/-- Why an instruction has no meaning. -/
inductive Refusal where
  /-- Raised by an arm of `exec` whose instruction has no meaning yet. Safe: the model stops. No arm does it. -/
  | notModelled (mnemonic : String)
deriving DecidableEq, Repr

/-- The machine after a successful load of the empty image, under the default parameters and with nothing scheduled (R32,
R310, R312; assumption log 9). Memory lists nothing: every address reads as its reset content. -/
def State.reset : State where
  mem := []
  v := .replicate 16 0
  i := 0
  pc := 0x200
  stack := .replicate 16 0
  sp := 0
  dt := 0
  st := 0
  fb := .clear
  run := .running
  params := .default
  inputs := []
  draws := 0
  keyIn := .replicate 16 false
  randIn := 0
  present := false

end Sys2Proof.Machine
end

