-- ==== Sys2Proof/Machine/Ops.lean ====
section
/-! DEFINITION. Sys2Proof/Machine/Ops.lean: the named operations over memory, registers, stack, framebuffer and ports,
the fetch, the fault entry, and the steps of the timer and the host. -/

namespace Sys2Proof.Machine

/-! ### Memory (20_memory.md) -/

/-- The address space is 0x000 to 0xFFF (R60): "a read at address a > 0xFFF raises" (R66). -/
def inMemory (a : Nat) : Bool := a ≤ 0xFFF

/-- What an unlisted address reads as, its reset content: the font at 0x000 to 0x04F and zero elsewhere (R62). -/
def Memory.unlisted (font : Vector Byte 80) (a : Nat) : Byte := if h : a < 80 then font[a] else 0

/-- The canonical form: addresses strictly rising and inside the address space, and no entry equal to what its address
would read as unlisted. -/
abbrev Memory.wf (font : Vector Byte 80) (m : List Host.Cell) : Prop :=
  m.Pairwise (fun c d => c.1 < d.1) ∧ ∀ c ∈ m, inMemory c.1 = true ∧ c.2 ≠ Memory.unlisted font c.1

/-- The byte at an address. -/
def Memory.read (font : Vector Byte 80) : List Host.Cell → Nat → Byte
  | [], a => Memory.unlisted font a
  | (k, b) :: m, a => if k = a then b else Memory.read font m a

/-- List a byte at an address, in its place. -/
def Memory.insert : List Host.Cell → Nat → Byte → List Host.Cell
  | [], a, b => [(a, b)]
  | (k, c) :: m, a, b =>
    if a < k then (a, b) :: (k, c) :: m
    else if k = a then (a, b) :: m
    else (k, c) :: Memory.insert m a b

/-- List an address no more. -/
def Memory.erase : List Host.Cell → Nat → List Host.Cell
  | [], _ => []
  | (k, c) :: m, a => if k = a then Memory.erase m a else (k, c) :: Memory.erase m a

/-- Store a byte, keeping the canonical form. -/
def Memory.write (font : Vector Byte 80) (m : List Host.Cell) (a : Nat) (b : Byte) : List Host.Cell :=
  if b = Memory.unlisted font a then Memory.erase m a else Memory.insert m a b

/-- Mem[a]. -/
def State.peek (s : State) (a : Nat) : Byte := Memory.read s.params.font s.mem a

/-- Mem[a] <- b, of an address already checked (R66). -/
def State.poke (s : State) (a : Nat) (b : Byte) : State :=
  { s with mem := Memory.write s.params.font s.mem a b }

/-- The bytes bs at the addresses a, a + 1, … in this order. -/
def State.pokes (s : State) (a : Nat) : List Byte → State
  | [] => s
  | b :: bs => (s.poke a b).pokes (a + 1) bs

/-! ### Registers (10_state.md R21, R22) -/

/-- V[r]. -/
def State.reg (s : State) (r : Reg) : Byte := s.v[r]

/-- V[r] <- b. -/
def State.setReg (s : State) (r : Reg) (b : Byte) : State := { s with v := s.v.set r b }

/-- "It then writes Vx, then writes VF" (42_alu.md R171): the result first, the flag last. -/
def State.setRegFlag (s : State) (x : Reg) (result flag : Byte) : State :=
  (s.setReg x result).setReg .vf flag

/-! ### The call stack (10_state.md R25) -/

/-- Stack[SP] <- PC; SP <- SP + 1, or none when 16 return addresses are already held (41_control_flow.md R143). -/
def State.pushPc (s : State) : Option State :=
  if h : s.sp.val < 16 then
    some { s with stack := s.stack.set s.sp.val s.pc, sp := ⟨s.sp.val + 1, by omega⟩ }
  else none

/-- SP <- SP − 1; PC <- Stack[SP], or none when the stack is empty (41_control_flow.md R141). -/
def State.popPc (s : State) : Option State :=
  if h : 0 < s.sp.val then
    some { s with pc := s.stack[s.sp.val - 1]'(by omega), sp := ⟨s.sp.val - 1, by omega⟩ }
  else none

/-! ### The framebuffer (10_state.md R28) -/

/-- FB[col][row]. -/
def FrameBuffer.pixel (fb : FrameBuffer) (col : Fin 64) (row : Fin 32) : Bool := fb[col][row]

/-- FB[col][row] <- not FB[col][row]. -/
def FrameBuffer.toggle (fb : FrameBuffer) (col : Fin 64) (row : Fin 32) : FrameBuffer :=
  fb.set col (fb[col].set row (!fb[col][row]))

/-! ### Faults (60_exceptions.md R280 to R285) -/

/-- Taking a fault: "writes PC back to a0 … Its only effect is Run <- HALTED(h)" (R285). There is no handler and no return
from a fault (R289, R290). -/
def takeFault (reason : HaltReason) (a0 : Word) (op : Option Word) (s : State) : State :=
  { s with pc := a0, run := .halted ⟨reason, some a0, op⟩ }

/-- `raise E` in an instruction with the word `op`: PC holds a0 + 2 there (40_engine.md R121), so a0 is PC − 2
(assumption log 14). -/
def raise (reason : HaltReason) (op : Word) (s : State) : State :=
  takeFault reason (s.pc - 2) (some op) s

/-! ### The fetch (20_memory.md R67, 40_engine.md R121) -/

/-- The opcode at PC and the state with PC advanced by 2, or none when PC + 1 > 0xFFF. -/
def fetch (s : State) : Option (Word × State) :=
  if inMemory (s.pc.toNat + 1) then
    some (wordOfBytes (s.peek s.pc.toNat) (s.peek (s.pc.toNat + 1)), { s with pc := s.pc + 2 })
  else none

/-! ### Ports and the other agents -/

/-- The n-th free draw: an agent, and the samples if it is the engine (R40, R41, R45; assumption logs 2, 3). -/
def Input.drawn (n : Nat) : Input :=
  match Config.freeAgent n with
  | .engine => .engine (Config.freeKeys n) (Config.freeRand n)
  | .timer => .tick
  | .host => .cancel

/-- Whose turn it is and what the host supplies with it: the oldest entry of `inputs`, or a free draw when nothing is
scheduled, so that every interleaving is allowed (60_exceptions.md R288). -/
def State.nextInput (s : State) : Input :=
  match s.inputs with
  | e :: _ => e
  | [] => .drawn s.draws

/-- The start of every step: its entry or draw is used up, and the strobe of the last step is over (R42). -/
def State.useInput (s : State) : State :=
  match s.inputs with
  | _ :: rest => { s with inputs := rest, present := false }
  | [] => { s with draws := s.draws + 1, present := false }

/-- The start of an engine step: its samples are on the ports (R40, R41). -/
def State.takeSample (s : State) (keys : Keys) (rand : Byte) : State :=
  { s.useInput with keyIn := keys, randIn := rand }

/-- One timer, "exactly 1 per 60Hz tick while >0", floor 0 (45_timers_input.md R259). -/
def countDown (t : Byte) : Byte := if t = 0 then 0 else t - 1

/-- Whether the tick step is enabled (R258). -/
def State.tickEnabled (s : State) : Bool :=
  match s.run with
  | .running => true
  | .blocked _ => s.params.ticksWhileBlocked
  | .halted _ => false

/-- A tick offered to the timer: the tick step of R259 if it is enabled, and nothing otherwise (assumption log 11). -/
def State.tick (s : State) : State :=
  if s.tickEnabled then { s with dt := countDown s.dt, st := countDown s.st } else s

/-- The host's cancel: "it sets `Run <- HALTED(Cancelled)` and changes nothing else" (10_state.md R46). -/
def State.cancel (s : State) : State := { s with run := .halted ⟨.cancelled, none, none⟩ }

/-- min { k | Key[k] = true }, if a key is pressed (45_timers_input.md R253). -/
def lowestKey (keys : Keys) : Option Reg := (List.finRange 16).find? fun k => keys[k]

/-- KeyPoll(r), the engine step while BLOCKED(r) (R254). -/
def State.keyPoll (s : State) (r : Reg) : State :=
  match lowestKey s.keyIn with
  | some k => { s.setReg r (BitVec.ofNat 8 k.val) with run := .running }
  | none => s

/-! ### Outputs -/

/-- soundActive = (ST > 0) (10_state.md R44). -/
def State.soundActive (s : State) : Bool := 0 < s.st.toNat

/-- The numeric codes of 60_exceptions.md R280. -/
def HaltReason.code : HaltReason → Nat
  | .loadError => 1
  | .unimplementedOpcode => 2
  | .quit => 3
  | .outOfBoundsAccess .fetch => 4
  | .outOfBoundsAccess .read => 5
  | .outOfBoundsAccess .write => 6
  | .outOfBoundsAccess .stackOverflow => 7
  | .outOfBoundsAccess .stackUnderflow => 8
  | .outOfBoundsAccess .keyIndex => 9
  | .cancelled => 10

/-- The halt status port: 0 while Run ≠ HALTED (R47, R280). -/
def State.haltStatus (s : State) : Nat :=
  match s.run with
  | .halted h => h.reason.code
  | _ => 0

/-! ### Load (70_reset_and_hazards.md R310 to R312) -/

/-- "maximum ROM size | 4096 − 512 = 3584 bytes" (R6). -/
def maxRomSize : Nat := 3584

/-- Load(rom), the reset of the core, with the parameters and the schedule the host chooses. An image that is too long is
rejected: nothing is written but Run (R312; assumption log 10). -/
def State.load (params : Params) (inputs : List Input) (rom : List Byte) : State :=
  let blank : State := { State.reset with params := params, inputs := inputs }
  if rom.length ≤ maxRomSize then blank.pokes 0x200 rom
  else { blank with run := .halted ⟨.loadError, none, none⟩ }

end Sys2Proof.Machine
end

