-- ==== Sys2Proof/Machine/Flags.lean ====
section
/-! DEFINITION. Sys2Proof/Machine/Flags.lean: every value an instruction writes to VF as a flag (10_state.md R22,
42_alu.md R170 to R182, 44_display.md R232). -/

namespace Sys2Proof.Machine

/-- A flag as the byte VF receives. -/
def flagByte (b : Bool) : Byte := if b then 1 else 0

/-- Carry of 8xy4: (sum > 255) on the untruncated sum (R178). -/
def carryFlag (a b : Byte) : Byte := flagByte (255 < a.toNat + b.toNat)

/-- Not-borrow of a − b: 1 if a > b, 0 if a < b, and the parameter `P_SUB_EQUAL_FLAG` when they are equal (R179, R181). -/
def notBorrowFlag (equalFlag : Bool) (a b : Byte) : Byte :=
  flagByte (if b.toNat < a.toNat then true else if a.toNat < b.toNat then false else equalFlag)

/-- The bit 8xy6 shifts out: a[0] (R180). -/
def shrFlag (a : Byte) : Byte := flagByte (a.getLsbD 0)

/-- The bit 8xyE shifts out: a[7] (R182). -/
def shlFlag (a : Byte) : Byte := flagByte (a.getLsbD 7)

/-- Collision of Dxyn (R232). -/
def collisionFlag (coll : Bool) : Byte := flagByte coll

/-- "if P_LOGIC_RESETS_VF then V[0xF] <- 0, after the write of V[x]" (R175 to R177). -/
def State.logicFlag (s : State) : State := if s.params.logicResetsVf then s.setReg .vf 0 else s

end Sys2Proof.Machine
end

