-- ==== Sys2Proof/Machine/Alu.lean ====
section
/-! DEFINITION. Sys2Proof/Machine/Alu.lean: register loads, the ALU and the random byte (42_alu.md). Operands are read
before any write; "flag V[F] is derived from comparing the original 8-bit operands" (R170), and the flag is written last
(R171). -/

namespace Sys2Proof.Machine

/-- 6xkk (R172). -/
def execLdVxKk (x : Reg) (kk : Byte) (s : State) : Host.Outcome State Fault Refusal := .next (s.setReg x kk)

/-- 7xkk: no carry (R173). -/
def execAddVxKk (x : Reg) (kk : Byte) (s : State) : Host.Outcome State Fault Refusal :=
  .next (s.setReg x (s.reg x + kk))

/-- 8xy0 (R174). -/
def execLdVxVy (x y : Reg) (s : State) : Host.Outcome State Fault Refusal := .next (s.setReg x (s.reg y))

/-- 8xy1 (R175). -/
def execOrVxVy (x y : Reg) (s : State) : Host.Outcome State Fault Refusal :=
  .next (s.setReg x (s.reg x ||| s.reg y)).logicFlag

/-- 8xy2 (R176). -/
def execAndVxVy (x y : Reg) (s : State) : Host.Outcome State Fault Refusal :=
  .next (s.setReg x (s.reg x &&& s.reg y)).logicFlag

/-- 8xy3 (R177). -/
def execXorVxVy (x y : Reg) (s : State) : Host.Outcome State Fault Refusal :=
  .next (s.setReg x (s.reg x ^^^ s.reg y)).logicFlag

/-- 8xy4 (R178). -/
def execAddVxVy (x y : Reg) (s : State) : Host.Outcome State Fault Refusal :=
  .next (s.setRegFlag x (s.reg x + s.reg y) (carryFlag (s.reg x) (s.reg y)))

/-- 8xy5: Vx − Vy (R179). -/
def execSubVxVy (x y : Reg) (s : State) : Host.Outcome State Fault Refusal :=
  .next (s.setRegFlag x (s.reg x - s.reg y) (notBorrowFlag s.params.subEqualFlag (s.reg x) (s.reg y)))

/-- 8xy6: a logical shift right by one of Vx; "The y field is ignored" (R180). -/
def execShrVx (x _y : Reg) (s : State) : Host.Outcome State Fault Refusal :=
  .next (s.setRegFlag x (s.reg x >>> 1) (shrFlag (s.reg x)))

/-- 8xy7: Vy − Vx (R181). -/
def execSubnVxVy (x y : Reg) (s : State) : Host.Outcome State Fault Refusal :=
  .next (s.setRegFlag x (s.reg y - s.reg x) (notBorrowFlag s.params.subEqualFlag (s.reg y) (s.reg x)))

/-- 8xyE: a shift left by one of Vx; "The y field is ignored" (R182). -/
def execShlVx (x _y : Reg) (s : State) : Host.Outcome State Fault Refusal :=
  .next (s.setRegFlag x (s.reg x <<< 1) (shlFlag (s.reg x)))

/-- Cxkk: V[x] <- Rand() & kk, with the random byte of the step (R183). -/
def execRndVxKk (x : Reg) (kk : Byte) (s : State) : Host.Outcome State Fault Refusal :=
  .next (s.setReg x (s.randIn &&& kk))

end Sys2Proof.Machine
end

