-- ==== Sys2Proof/Machine/Operands.lean ====
section
/-! DEFINITION. Sys2Proof/Machine/Operands.lean: the operand forms of the instructions: jump targets and skips, effective
addresses, key indices, glyph addresses, decimal digits, sprite coordinates. -/

namespace Sys2Proof.Machine

/-- A target or an I value: nnn, "zero-extended to 16 bits" (41_control_flow.md R140). -/
def zext (nnn : Addr) : Word := nnn.setWidth 16

/-- The target of Bnnn (41_control_flow.md R144). -/
def jpV0Target (nnn : Addr) (s : State) : Word :=
  if s.params.bnnnAddsV0 then zext nnn + (s.reg 0).setWidth 16 else zext nnn

/-- Skip(cond): "if cond then PC <- (PC + 2) mod 0x10000" (41_control_flow.md R145). -/
def State.skipIf (s : State) (cond : Bool) : State := { s with pc := if cond then s.pc + 2 else s.pc }

/-- The effective address I + k, "computed as a natural number with no wrap" (20_memory.md R65). -/
def State.effAddr (s : State) (k : Nat) : Nat := s.i.toNat + k

/-- The key a register value names, if it names one of the 16 (45_timers_input.md R250). -/
def keyIndex (b : Byte) : Option Reg := if h : b.toNat < 16 then some ⟨b.toNat, h⟩ else none

/-- The glyph number of Fx29 (43_index_memory.md R203). -/
def glyphNumber (index : FontIndex) (b : Byte) : Nat :=
  match index with
  | .lowNibble => b.toNat % 16
  | .fullByte => b.toNat

/-- The address of a glyph, 5 · d (43_index_memory.md R203). -/
def glyphAddr (index : FontIndex) (b : Byte) : Word := BitVec.ofNat 16 (5 * glyphNumber index b)

/-- The three decimal digits, hundreds first, "a numeric digit 0..9" each (43_index_memory.md R204). -/
def bcdDigits (b : Byte) : List Byte :=
  [BitVec.ofNat 8 (b.toNat / 100), BitVec.ofNat 8 (b.toNat / 10 % 10), BitVec.ofNat 8 (b.toNat % 10)]

/-- The column of the pixel at column offset c: (x0 + c) mod 64 (44_display.md R231). -/
def spriteCol (x0 : Byte) (c : Nat) : Fin 64 := Fin.ofNat 64 (x0.toNat + c)

/-- The row of the pixel at row offset r: (y0 + r) mod 32 (44_display.md R231). -/
def spriteRow (y0 : Byte) (r : Nat) : Fin 32 := Fin.ofNat 32 (y0.toNat + r)

/-- The bit at column offset c of a sprite row, bit 7 being the leftmost (44_display.md R231). -/
def spriteBit (row : Byte) (c : Nat) : Bool := row.getLsbD (7 - c)

/-- I after Fx55 and Fx65 (43_index_memory.md R205, R206). -/
def State.advanceI (s : State) (x : Reg) : State :=
  { s with i := if s.params.ldstIncrementsI then s.i + BitVec.ofNat 16 (x.val + 1) else s.i }

end Sys2Proof.Machine
end

