-- ==== Sys2Proof/Machine/Control.lean ====
section
/-! DEFINITION. Sys2Proof/Machine/Control.lean: jumps, call, return and skips (41_control_flow.md). In every meaning PC
holds a0 + 2 on entry (40_engine.md R121). -/

namespace Sys2Proof.Machine

/-- 00EE (R141). -/
def execRet (s : State) : Host.Outcome State Fault Refusal :=
  match s.popPc with
  | some t => .next t
  | none => .next (raise (.outOfBoundsAccess .stackUnderflow) (encode .ret) s)

/-- 1nnn (R142). -/
def execJp (nnn : Addr) (s : State) : Host.Outcome State Fault Refusal := .next { s with pc := zext nnn }

/-- 2nnn: "CALL pushes the post-fetch PC before jumping" (R143). -/
def execCall (nnn : Addr) (s : State) : Host.Outcome State Fault Refusal :=
  match s.pushPc with
  | some t => .next { t with pc := zext nnn }
  | none => .next (raise (.outOfBoundsAccess .stackOverflow) (encode (.call nnn)) s)

/-- Bnnn (R144). -/
def execJpV0 (nnn : Addr) (s : State) : Host.Outcome State Fault Refusal := .next { s with pc := jpV0Target nnn s }

/-- 3xkk (R146). -/
def execSeVxKk (x : Reg) (kk : Byte) (s : State) : Host.Outcome State Fault Refusal := .next (s.skipIf (s.reg x == kk))

/-- 4xkk (R147). -/
def execSneVxKk (x : Reg) (kk : Byte) (s : State) : Host.Outcome State Fault Refusal := .next (s.skipIf (s.reg x != kk))

/-- 5xy0 (R148). -/
def execSeVxVy (x y : Reg) (s : State) : Host.Outcome State Fault Refusal := .next (s.skipIf (s.reg x == s.reg y))

/-- 9xy0 (R149). -/
def execSneVxVy (x y : Reg) (s : State) : Host.Outcome State Fault Refusal := .next (s.skipIf (s.reg x != s.reg y))

end Sys2Proof.Machine
end

