-- ==== Sys2Proof/Machine/Display.lean ====
section
/-! DEFINITION. Sys2Proof/Machine/Display.lean: the framebuffer instructions (44_display.md). -/

namespace Sys2Proof.Machine

/-- 00E0: all pixels off; no Present (R230). -/
def execCls (s : State) : Host.Outcome State Fault Refusal := .next { s with fb := .clear }

/-- One set sprite bit: "if FB[px][py] = true then coll <- 1; FB[px][py] <- not FB[px][py]" (R232), on the pair of the
framebuffer and coll. -/
def xorPixel (px : Fin 64) (py : Fin 32) (d : FrameBuffer × Bool) : FrameBuffer × Bool :=
  (d.1.toggle px py, d.2 || d.1.pixel px py)

/-- The loop over the column offsets c of one sprite row. -/
def drawRow (x0 : Byte) (py : Fin 32) (row : Byte) (d : FrameBuffer × Bool) : FrameBuffer × Bool :=
  (List.range 8).foldl (fun d c => if spriteBit row c then xorPixel (spriteCol x0 c) py d else d) d

/-- The loop over the row offsets r of a sprite of n rows, with the sprite bytes at I + r. -/
def drawRows (s : State) (x0 y0 : Byte) (n : Nat) (d : FrameBuffer × Bool) : FrameBuffer × Bool :=
  (List.range n).foldl (fun d r => drawRow x0 (spriteRow y0 r) (s.peek (s.effAddr r)) d) d

/-- Dxyn (R232, R233): the coordinates are read before any write, every sprite byte is checked before any pixel changes,
n = 0 reads nothing, VF <- coll comes after the blit, and the strobe last. -/
def execDrw (x y : Reg) (n : Nibble) (s : State) : Host.Outcome State Fault Refusal :=
  if n = 0 || inMemory (s.effAddr (n.toNat - 1)) then
    let d := drawRows s (s.reg x) (s.reg y) n.toNat (s.fb, false)
    .next { s.setReg .vf (collisionFlag d.2) with fb := d.1, present := true }
  else .next (raise (.outOfBoundsAccess .read) (encode (.drw x y n)) s)

end Sys2Proof.Machine
end

