-- ==== Sys2Proof/Machine/Engine.lean ====
section
/-! DEFINITION. Sys2Proof/Machine/Engine.lean: SYS and QUIT (40_engine.md R125, R126). In every meaning PC holds a0 + 2 on
entry (R121). -/

namespace Sys2Proof.Machine

/-- 0nnn: "nothing; PC stays at a0 + 2" (R125). -/
def execSys (_nnn : Addr) (s : State) : Host.Outcome State Fault Refusal := .next s

/-- QUIT: raise Quit(a0, op) (R126). -/
def execQuit (op : Word) (s : State) : Host.Outcome State Fault Refusal :=
  .next (raise .quit (encode (.quit op)) s)

end Sys2Proof.Machine
end

