-- ==== Sys2Proof/Machine/Index.lean ====
section
/-! DEFINITION. Sys2Proof/Machine/Index.lean: the index register and memory transfer (43_index_memory.md). "A multi-byte
instruction checks every address it will touch before it writes anything" (R200): the addresses rise, so the last one
decides. -/

namespace Sys2Proof.Machine

/-- Annn (R201). -/
def execLdI (nnn : Addr) (s : State) : Host.Outcome State Fault Refusal := .next { s with i := zext nnn }

/-- Fx1E: mod 0x10000, VF unchanged (R202). -/
def execAddIVx (x : Reg) (s : State) : Host.Outcome State Fault Refusal :=
  .next { s with i := s.i + (s.reg x).setWidth 16 }

/-- Fx29 (R203). -/
def execLdFVx (x : Reg) (s : State) : Host.Outcome State Fault Refusal :=
  .next { s with i := glyphAddr s.params.fontIndex (s.reg x) }

/-- Fx33 (R204). -/
def execLdBVx (x : Reg) (s : State) : Host.Outcome State Fault Refusal :=
  if inMemory (s.effAddr 2) then .next (s.pokes (s.effAddr 0) (bcdDigits (s.reg x)))
  else .next (raise (.outOfBoundsAccess .write) (encode (.ldBVx x)) s)

/-- V0, …, Vx, "inclusive ranges V[0..x]" (R205). -/
def State.regsUpTo (s : State) (x : Reg) : List Byte := s.v.toList.take (x.val + 1)

/-- Fx55 (R205). -/
def execLdMemVx (x : Reg) (s : State) : Host.Outcome State Fault Refusal :=
  if inMemory (s.effAddr x.val) then .next ((s.pokes (s.effAddr 0) (s.regsUpTo x)).advanceI x)
  else .next (raise (.outOfBoundsAccess .write) (encode (.ldMemVx x)) s)

/-- for k in 0..n−1: V[k] <- MemRead(I + k, 1) (R206). -/
def State.loadRegs (s : State) : Nat → State
  | 0 => s
  | n + 1 => (s.loadRegs n).setReg (Fin.ofNat 16 n) (s.peek (s.effAddr n))

/-- Fx65 (R206). -/
def execLdVxMem (x : Reg) (s : State) : Host.Outcome State Fault Refusal :=
  if inMemory (s.effAddr x.val) then .next ((s.loadRegs (x.val + 1)).advanceI x)
  else .next (raise (.outOfBoundsAccess .read) (encode (.ldVxMem x)) s)

end Sys2Proof.Machine
end

