-- ==== Sys2Proof/Machine/Input.lean ====
section
/-! DEFINITION. Sys2Proof/Machine/Input.lean: the key and timer instructions (45_timers_input.md). -/

namespace Sys2Proof.Machine

/-- Ex9E: skip if the key is pressed in this step's sample (R250, R251). -/
def execSkpVx (x : Reg) (s : State) : Host.Outcome State Fault Refusal :=
  match keyIndex (s.reg x) with
  | some k => .next (s.skipIf s.keyIn[k])
  | none => .next (raise (.outOfBoundsAccess .keyIndex) (encode (.skpVx x)) s)

/-- ExA1: skip if the key is not pressed in this step's sample (R250, R252). -/
def execSknpVx (x : Reg) (s : State) : Host.Outcome State Fault Refusal :=
  match keyIndex (s.reg x) with
  | some k => .next (s.skipIf (!s.keyIn[k]))
  | none => .next (raise (.outOfBoundsAccess .keyIndex) (encode (.sknpVx x)) s)

/-- The first step of Fx0A: the lowest pressed key, or Run <- BLOCKED(x) (R253). -/
def State.keyWait (s : State) (x : Reg) : State :=
  match lowestKey s.keyIn with
  | some k => s.setReg x (BitVec.ofNat 8 k.val)
  | none => { s with run := .blocked x }

/-- Fx0A (R253). -/
def execLdVxK (x : Reg) (s : State) : Host.Outcome State Fault Refusal := .next (s.keyWait x)

/-- Fx07 (R255). -/
def execLdVxDt (x : Reg) (s : State) : Host.Outcome State Fault Refusal := .next (s.setReg x s.dt)

/-- Fx15 (R256). -/
def execLdDtVx (x : Reg) (s : State) : Host.Outcome State Fault Refusal := .next { s with dt := s.reg x }

/-- Fx18 (R257). -/
def execLdStVx (x : Reg) (s : State) : Host.Outcome State Fault Refusal := .next { s with st := s.reg x }

end Sys2Proof.Machine
end

