-- ==== Sys2Proof/Machine/Step.lean ====
section
/-! DEFINITION. Sys2Proof/Machine/Step.lean: one step of the core (10_state.md R45, 40_engine.md R120), and the host's way
to place an instruction. -/

namespace Sys2Proof.Machine

/-- The engine step, with this step's samples already on the ports (R120): a key poll while BLOCKED; otherwise the fetch,
the decoding and the instruction, with the faults in the order of R287. -/
def engineStep (s : State) : Host.Outcome State Fault Refusal :=
  match s.run with
  | .blocked r => .next (s.keyPoll r)
  | .halted h => .fault (.noStepEnabled h)
  | .running =>
    match fetch s with
    | none => .next (takeFault (.outOfBoundsAccess .fetch) s.pc none s)
    | some (op, t) =>
      match decodeWord t.params.quitOpcodes op with
      | .ok i => exec i t
      | .error _ => .next (raise .unimplementedOpcode op t)

/-- One step of the agent whose turn it is (R45, R288): `nextInput` says which. In HALTED no step is enabled (R284). -/
def step (s : State) : Host.Outcome State Fault Refusal :=
  match s.run with
  | .halted h => .fault (.noStepEnabled h)
  | .running | .blocked _ =>
    match s.nextInput with
    | .tick => .next s.useInput.tick
    | .cancel => .next s.useInput.cancel
    | .engine keys rand => engineStep (s.takeSample keys rand)

/-- `inputs` from the next engine turn on. -/
def engineTurns : List Input → List Input
  | .engine keys rand :: rest => .engine keys rand :: rest
  | .tick :: rest => engineTurns rest
  | .cancel :: rest => engineTurns rest
  | [] => []

/-- `s` with the engine's turn next: ticks and cancels before the next scheduled engine turn are dropped, and where none is
scheduled one is, with freely drawn samples. -/
def State.engineFirst (s : State) : State :=
  match engineTurns s.inputs with
  | e :: rest => { s with inputs := e :: rest }
  | [] => { s with inputs := [.engine (Config.freeKeys s.draws) (Config.freeRand s.draws)], draws := s.draws + 1 }

/-- `s` with the instruction word `w` of `nbits` bits stored where the next fetch reads, high byte first (R67), and with
what that fetch needs: Run = RUNNING, and the engine's turn next. (Where PC is above 0xFFE there is no such place, and the
fetch faults.) -/
def State.withFetchWord (s : State) (nbits w : Nat) : State :=
  let op : Word := BitVec.ofNat 16 (w % 2 ^ nbits)
  let placed := if inMemory (s.pc.toNat + 1) then s.pokes s.pc.toNat [highByte op, lowByte op] else s
  { placed.engineFirst with run := .running }

end Sys2Proof.Machine
end

