-- ==== Sys2Proof/Safety.lean ====
section
/-! DEFINITION. Sys2Proof/Safety.lean: the terms the claims use: what a fault is, the invariant of the machine, the frame
of a step, and the tables of 10_state.md R22 and 60_exceptions.md R280 as functions of an instruction. -/

namespace Sys2Proof.Machine

/-! ### Safe runs -/

/-- "A halt whose reason is not Cancelled is a fault: a model must treat such a state as never a successful end of a run"
(60_exceptions.md R284). -/
def State.Faulted (s : State) : Prop := ∃ h, s.run = .halted h ∧ h.reason ≠ .cancelled

/-- Whether the engine moves next: its turn is scheduled, or drawn where nothing is scheduled. -/
def State.engineNext (s : State) : Bool :=
  match s.nextInput with
  | .engine _ _ => true
  | .tick | .cancel => false

/-- `s` is about to execute the instruction `i`: the engine moves next, it is RUNNING, the fetch is inside memory, and the
word there decodes to `i`. -/
def State.About (s : State) (i : Instr) : Prop :=
  s.run = .running ∧ s.engineNext = true ∧ s.pc.toNat + 1 ≤ 0xFFF ∧
  decodeWord s.params.quitOpcodes (wordOfBytes (s.peek s.pc.toNat) (s.peek (s.pc.toNat + 1))) = .ok i

/-- `n` steps, stopping where no step is enabled. -/
def steps : Nat → State → Host.Outcome State Fault Refusal
  | 0, s => .next s
  | n + 1, s =>
    match step s with
    | .next t => steps n t
    | .fault f => .fault f
    | .refused r => .refused r

/-! ### The invariant -/

/-- "The largest value PC can reach is 0x1002 … or 0x10FE when `P_BNNN_ADDS_V0` is true" (10_state.md R24). -/
def pcMax (p : Params) : Nat := if p.bnnnAddsV0 then 0x10FE else 0x1002

/-- The column "recorded" of the table of 60_exceptions.md R280. -/
def HaltRecord.Recorded (h : HaltRecord) : Prop :=
  match h.reason with
  | .loadError | .cancelled => h.addr = none ∧ h.opcode = none
  | .outOfBoundsAccess .fetch => h.addr.isSome = true ∧ h.opcode = none
  | .unimplementedOpcode | .quit | .outOfBoundsAccess _ => h.addr.isSome = true ∧ h.opcode.isSome = true

/-- What every step keeps: the canonical form of memory, the bound on PC (R24), return addresses inside 0x000..0x1000, and
in HALTED a record of the shape of R280 whose address is PC (R285). -/
def State.Inv (s : State) : Prop :=
  Memory.wf s.params.font s.mem ∧
  s.pc.toNat ≤ pcMax s.params ∧
  (∀ k : Fin 16, k.val < s.sp.val → s.stack[k].toNat ≤ 0x1000) ∧
  (∀ h, s.run = .halted h → h.Recorded ∧ ∀ a, h.addr = some a → s.pc = a)

/-! ### Frames -/

/-- Every register but those listed is as before. -/
def RegsUnchanged (except : List Reg) (s t : State) : Prop := ∀ r, r ∉ except → t.reg r = s.reg r

/-- Every byte of memory reads as before. -/
def MemUnchanged (s t : State) : Prop := ∀ a, t.peek a = s.peek a

/-- Every byte of memory but the `n` bytes from `first` on reads as before. -/
def MemUnchangedOutside (first n : Nat) (s t : State) : Prop :=
  ∀ a, a < first ∨ first + n ≤ a → t.peek a = s.peek a

/-- Only V changes, in the registers listed, and the bytes of memory read as before. -/
def OnlyRegs (except : List Reg) (s t : State) : Prop :=
  t = { s with v := t.v } ∧ RegsUnchanged except s t ∧ MemUnchanged s t

/-- Only PC changes. -/
def OnlyPc (s t : State) : Prop := t = { s with pc := t.pc } ∧ RegsUnchanged [] s t ∧ MemUnchanged s t

/-- The fault of an instruction with PC = a0 + 2 on entry: only Run and PC change, PC back to a0, and the record is the
one of R280. -/
def FaultsWith (reason : HaltReason) (i : Instr) (s t : State) : Prop :=
  t = { s with pc := s.pc - 2, run := .halted ⟨reason, some (s.pc - 2), some (encode i)⟩ } ∧
  RegsUnchanged [] s t ∧ MemUnchanged s t

/-- The next fetch reads the two bytes that `byte` gives at PC and PC + 1. -/
def FetchSees (byte : Nat → Byte) (t : State) : Prop :=
  fetch t = some (wordOfBytes (byte t.pc.toNat) (byte (t.pc.toNat + 1)), { t with pc := t.pc + 2 })

/-- Only Run, the ports and what the host has in store change: Run is HALTED with the record `h`. -/
def OnlyHalted (h : HaltRecord) (s t : State) : Prop :=
  t = { s with run := .halted h, inputs := t.inputs, draws := t.draws, keyIn := t.keyIn, randIn := t.randIn,
               present := false } ∧ RegsUnchanged [] s t ∧ MemUnchanged s t

/-- The instruction answers a next state that differs from `s` in PC alone: 2 further when `cond` holds, and as it was
when it does not (41_control_flow.md R145). -/
def SkipsWhen (cond : Prop) (i : Instr) (s : State) : Prop :=
  ∃ t, exec i s = .next t ∧ OnlyPc s t ∧ (cond → t.pc = s.pc + 2) ∧ (¬ cond → t.pc = s.pc)

/-- `k` is the lowest-indexed pressed key. -/
def LowestPressed (keys : Keys) (k : Reg) : Prop := keys[k] = true ∧ ∀ j : Reg, j < k → keys[j] = false

/-- No key is pressed. -/
def NonePressed (keys : Keys) : Prop := ∀ k : Reg, keys[k] = false

/-- The registers an instruction may write: its destination, and VF where 10_state.md R22 lists it. -/
def regsWritten (p : Params) : Instr → List Reg
  | .ldVxKk x _ | .addVxKk x _ | .ldVxVy x _ | .rndVxKk x _ | .ldVxDt x | .ldVxK x => [x]
  | .orVxVy x _ | .andVxVy x _ | .xorVxVy x _ => if p.logicResetsVf then [x, .vf] else [x]
  | .addVxVy x _ | .subVxVy x _ | .shrVx x _ | .subnVxVy x _ | .shlVx x _ => [x, .vf]
  | .drw _ _ _ => [.vf]
  | .ldVxMem x => (List.finRange 16).filter (fun r => r ≤ x)
  | .sys _ | .cls | .ret | .quit _ | .jp _ | .call _ | .seVxKk _ _ | .sneVxKk _ _ | .seVxVy _ _ | .sneVxVy _ _
  | .ldI _ | .jpV0 _ | .skpVx _ | .sknpVx _ | .ldDtVx _ | .ldStVx _ | .addIVx _ | .ldFVx _ | .ldBVx _
  | .ldMemVx _ => []

/-- An instruction's own check: the column "raised by" of the table of R280 ("Every instruction has at most one such
check", R287), with QUIT. -/
def ownFault (s : State) : Instr → Option HaltReason
  | .quit _ => some .quit
  | .ret => if s.sp = 0 then some (.outOfBoundsAccess .stackUnderflow) else none
  | .call _ => if s.sp = 16 then some (.outOfBoundsAccess .stackOverflow) else none
  | .drw _ _ n => if 0 < n.toNat ∧ 0xFFF < s.i.toNat + n.toNat - 1 then some (.outOfBoundsAccess .read) else none
  | .ldBVx _ => if 0xFFF < s.i.toNat + 2 then some (.outOfBoundsAccess .write) else none
  | .ldMemVx x => if 0xFFF < s.i.toNat + x.val then some (.outOfBoundsAccess .write) else none
  | .ldVxMem x => if 0xFFF < s.i.toNat + x.val then some (.outOfBoundsAccess .read) else none
  | .skpVx x | .sknpVx x => if 0xF < (s.reg x).toNat then some (.outOfBoundsAccess .keyIndex) else none
  | .sys _ | .cls | .jp _ | .seVxKk _ _ | .sneVxKk _ _ | .seVxVy _ _ | .ldVxKk _ _ | .addVxKk _ _ | .ldVxVy _ _
  | .orVxVy _ _ | .andVxVy _ _ | .xorVxVy _ _ | .addVxVy _ _ | .subVxVy _ _ | .shrVx _ _ | .subnVxVy _ _
  | .shlVx _ _ | .sneVxVy _ _ | .ldI _ | .jpV0 _ | .rndVxKk _ _ | .ldVxDt _ | .ldVxK _ | .ldDtVx _ | .ldStVx _
  | .addIVx _ | .ldFVx _ => none

/-! ### Sprites (44_display.md R231) -/

/-- A set bit of the sprite of `n` rows at I, drawn at (x0, y0), lands on the pixel (col, row). -/
def SpriteCovers (s : State) (x0 y0 n : Nat) (col : Fin 64) (row : Fin 32) : Prop :=
  ∃ r c, r < n ∧ c < 8 ∧ (s.peek (s.i.toNat + r)).getLsbD (7 - c) = true ∧
    (x0 + c) % 64 = col.val ∧ (y0 + r) % 32 = row.val

/-- Two states that differ at most in the stack slots at SP and above (10_state.md R35). -/
def SameButDeadSlots (s t : State) : Prop :=
  t = { s with stack := t.stack } ∧ ∀ k : Fin 16, k.val < s.sp.val → t.stack[k] = s.stack[k]

end Sys2Proof.Machine
end

