-- ==== Sys2Proof/Certificates/Slice0/Obligations.lean ====
section
/-! DEFINITION. Sys2Proof/Certificates/Slice0/Obligations.lean: the statements for the provers. In every statement about
`exec`, PC holds a0 + 2 on entry, as 40_engine.md R121 says it does while an instruction executes. -/

open Sys2Proof Sys2Proof.Machine

/-! ### Encoding (30_encoding.md) -/

/-- R93, R95: decoding the word of an instruction gives it back, with every operand at every value of its field, for every
set `P_QUIT_OPCODES`. The premise leaves out only the terms whose word stands for another instruction (R93's precedence);
that a member of the set precedes a pattern outside a = 0 is log 13. -/
def Obligations.DecodingTheEncodingGivesTheInstruction : Prop :=
  ∀ (quit : List Word) (i : Instr), i.ownsWord quit = true → decodeWord quit (encode i) = .ok i

/-- R93, R95: a decoded word loses no bit: its instruction encodes to it. -/
def Obligations.EncodingADecodedWordGivesTheWord : Prop :=
  ∀ (quit : List Word) (op : Word) (i : Instr),
    decodeWord quit op = .ok i → encode i = op ∧ i.ownsWord quit = true

/-- R93: the precedence of decoding. Exact words, then the members of `P_QUIT_OPCODES` (log 13), then SYS for every other
a = 0 word. -/
def Obligations.ExactWordsThenQuitThenSys : Prop :=
  ∀ quit : List Word,
    decodeWord quit 0x00E0 = .ok .cls ∧ decodeWord quit 0x00EE = .ok .ret ∧
    ∀ op : Word, op ≠ 0x00E0 → op ≠ 0x00EE →
      (op ∈ quit → decodeWord quit op = .ok (.quit op)) ∧
      (op ∉ quit → op.toNat < 0x1000 → decodeWord quit op = .ok (.sys (op.extractLsb' 0 12)))

/-- R95: apart from the words of the clause before, a word decodes exactly when a row with a = 1..F matches it or a = 0, to
an instruction of the row it matches, and "no two rows match the same word". The rows are transcribed from R95; ten of
them are the spec's general knowledge (G1). -/
def Obligations.DecodingFollowsTheRowsOfTheTable : Prop :=
  ∀ (quit : List Word) (op : Word), op ≠ 0x00E0 → op ≠ 0x00EE → op ∉ quit →
    (∀ i, decodeWord quit op = .ok i → i.row.matches op = true) ∧
    ((∃ i, decodeWord quit op = .ok i) ↔ op.toNat < 0x1000 ∨ ∃ r ∈ patternRows, r.matches op = true) ∧
    (∀ r ∈ patternRows, ∀ r' ∈ patternRows, r.matches op = true → r'.matches op = true → r = r')

/-- R96 (the spec's decision D25): the classes of the words that decode to UnimplementedOpcode. -/
def Obligations.UnimplementedWordsAreFiveClasses : Prop :=
  ∀ (quit : List Word) (op : Word), op ∉ quit →
    (decodeWord quit op = .error (.unimplementedOpcode op) ↔
      (op.toNat / 0x1000 = 0x5 ∧ op.toNat % 0x10 ≠ 0) ∨
      (op.toNat / 0x1000 = 0x8 ∧ op.toNat % 0x10 ∈ [0x8, 0x9, 0xA, 0xB, 0xC, 0xD, 0xF]) ∨
      (op.toNat / 0x1000 = 0x9 ∧ op.toNat % 0x10 ≠ 0) ∨
      (op.toNat / 0x1000 = 0xE ∧ op.toNat % 0x100 ∉ [0x9E, 0xA1]) ∨
      (op.toNat / 0x1000 = 0xF ∧ op.toNat % 0x100 ∉ [0x07, 0x0A, 0x15, 0x18, 0x1E, 0x29, 0x33, 0x55, 0x65]))

/-- Words of the worked examples (95_test_vectors.md) decode to the instructions they stand for, under the default
`P_QUIT_OPCODES`. -/
def Obligations.ExampleWordsDecode : Prop :=
  decodeWord [0x00FD] 0x00E0 = .ok .cls ∧ decodeWord [0x00FD] 0x00FD = .ok (.quit 0x00FD) ∧
  decodeWord [0x00FD] 0x0123 = .ok (.sys 0x123) ∧ decodeWord [0x00FD] 0x2300 = .ok (.call 0x300) ∧
  decodeWord [0x00FD] 0x6A2B = .ok (.ldVxKk 0xA 0x2B) ∧ decodeWord [0x00FD] 0x8015 = .ok (.subVxVy 0 1) ∧
  decodeWord [0x00FD] 0xD015 = .ok (.drw 0 1 5) ∧ decodeWord [0x00FD] 0xE1A1 = .ok (.sknpVx 1) ∧
  decodeWord [0x00FD] 0xF265 = .ok (.ldVxMem 2) ∧
  decodeWord [0x00FD] 0x5121 = .error (.unimplementedOpcode 0x5121)

/-! ### The engine step (40_engine.md) -/

/-- R45, R288 (decision D22): the host chooses the order of the agents, and every interleaving is allowed. The next step is
the one it has scheduled first, whichever that is; with nothing scheduled, the agent is a free value, and so are the
samples of an engine step. The step is that agent's. (That the order stands in `inputs` and free draws is logs 2 and 3, the
model's choice; the strobe is log 8.) -/
def Obligations.NextAgentIsScheduledOrAFreeDraw : Prop :=
  ∀ s : State,
    (∀ e rest, s.inputs = e :: rest →
      s.nextInput = e ∧ s.useInput = { s with inputs := rest, present := false }) ∧
    (s.inputs = [] →
      (s.nextInput = match Config.freeAgent s.draws with
        | .engine => .engine (Config.freeKeys s.draws) (Config.freeRand s.draws)
        | .timer => .tick
        | .host => .cancel) ∧
      s.useInput = { s with draws := s.draws + 1, present := false }) ∧
    ((∀ h, s.run ≠ .halted h) →
      (s.nextInput = .tick → step s = .next s.useInput.tick) ∧
      (s.nextInput = .cancel → step s = .next s.useInput.cancel) ∧
      (∀ keys rand, s.nextInput = .engine keys rand →
        step s = engineStep { s.useInput with keyIn := keys, randIn := rand }))

/-- R120, R121: when the engine moves next (scheduled, or drawn where nothing is scheduled, logs 2 and 3), is RUNNING, and
the two bytes at PC decode to `i`, the step is `exec i` at the state with PC advanced by 2 and the step's key sample and
random byte on the ports. The strobe of the step before is over (log 8). -/
def Obligations.StepRunsTheDecodedInstruction : Prop :=
  ∀ (s : State) (op : Word) (i : Instr) (keys : Keys) (rand : Byte),
    s.run = .running → s.nextInput = .engine keys rand → s.pc.toNat + 1 ≤ 0xFFF →
    op.toNat = (s.peek s.pc.toNat).toNat * 0x100 + (s.peek (s.pc.toNat + 1)).toNat →
    decodeWord s.params.quitOpcodes op = .ok i →
    step s = exec i { s.useInput with keyIn := keys, randIn := rand, pc := s.pc + 2 }

/-- R121: for all byte pairs at PC, the fetch "returns opcode (b0<<8)|b1 and advances PC by 2" before dispatch, so the
instruction sees PC = a0 + 2; with PC + 1 > 0xFFF the engine step raises OutOfBoundsAccess(Fetch). -/
def Obligations.FetchReadsBigEndianAndAdvances : Prop :=
  ∀ s : State,
    (s.pc.toNat + 1 ≤ 0xFFF →
      fetch s = some ((s.peek s.pc.toNat).setWidth 16 <<< 8 ||| (s.peek (s.pc.toNat + 1)).setWidth 16,
                      { s with pc := s.pc + 2 })) ∧
    (0xFFF < s.pc.toNat + 1 →
      fetch s = none ∧
      (s.run = .running → ∃ t h, engineStep s = .next t ∧ t.run = .halted h ∧
        h.reason = .outOfBoundsAccess .fetch))

/-- R67, R127, R285 (decisions D6, D7, D25): a fetch beyond memory halts the core with its address, and a word that is no
instruction with the word and its address; PC is as it was, and nothing but Run changes. -/
def Obligations.FetchAndDecodeFaultsHalt : Prop :=
  ∀ s : State, s.run = .running → s.engineNext = true →
    (0xFFF < s.pc.toNat + 1 →
      ∃ t, step s = .next t ∧ OnlyHalted ⟨.outOfBoundsAccess .fetch, some s.pc, none⟩ s t) ∧
    (s.pc.toNat + 1 ≤ 0xFFF → ∀ op : Word,
      op.toNat = (s.peek s.pc.toNat).toNat * 0x100 + (s.peek (s.pc.toNat + 1)).toNat →
      decodeWord s.params.quitOpcodes op = .error (.unimplementedOpcode op) →
      ∃ t, step s = .next t ∧ OnlyHalted ⟨.unimplementedOpcode, some s.pc, some op⟩ s t)

/-- R254 (decision D20): a poll while BLOCKED(r) with a key pressed writes the lowest one to Vr and leaves Run RUNNING; with
none it changes nothing. Neither fetches. The poll may be scheduled, or drawn where nothing is scheduled, with a free
sample (logs 2 and 3, the model's choice). -/
def Obligations.PollTakesTheLowestPressedKey : Prop :=
  ∀ (s : State) (r : Reg) (keys : Keys) (rand : Byte),
    s.run = .blocked r → s.nextInput = .engine keys rand →
    (∀ k, LowestPressed keys k →
      ∃ t, step s = .next t ∧
        t = { s.useInput with v := t.v, run := .running, keyIn := keys, randIn := rand } ∧
        (t.reg r).toNat = k.val ∧ RegsUnchanged [r] s t ∧ MemUnchanged s t) ∧
    (NonePressed keys →
      step s = .next { s.useInput with keyIn := keys, randIn := rand })

/-- §8 of the source, S11: "engine stays blocked, no state change across repeated polls", for any number of polls with no
key pressed. -/
def Obligations.BlockedEngineStaysBlockedWithoutAKey : Prop :=
  ∀ (n : Nat) (s : State) (r : Reg),
    s.run = .blocked r → n ≤ s.inputs.length →
    (∀ e ∈ s.inputs.take n, ∃ keys rand, e = .engine keys rand ∧ NonePressed keys) →
    ∃ t, steps n s = .next t ∧
      t = { s with inputs := s.inputs.drop n, keyIn := t.keyIn, randIn := t.randIn, present := t.present }

/-- R326 (decisions D27, D32), R284: a step is enabled exactly when Run is not HALTED. That `step` then answers the fault
`noStepEnabled` is log 1. In particular no instruction is ever refused. -/
def Obligations.StepIsEnabledExactlyWhenNotHalted : Prop :=
  ∀ s : State,
    (∀ h, s.run = .halted h → step s = .fault (.noStepEnabled h)) ∧
    ((∀ h, s.run ≠ .halted h) → ∃ t, step s = .next t)

/-! ### The timer and the host (45_timers_input.md, 10_state.md) -/

/-- R259: the tick lowers each timer by exactly 1 while > 0, "independently, floor 0", and "touches no other state". (When
it is enabled is R258.) -/
def Obligations.TickLowersBothTimersByOne : Prop :=
  ∀ s : State,
    (s.run = .running ∨ ∃ r, s.run = .blocked r ∧ s.params.ticksWhileBlocked = true) →
    s.tick.dt.toNat = s.dt.toNat - 1 ∧ s.tick.st.toNat = s.st.toNat - 1 ∧
    s.tick = { s with dt := s.tick.dt, st := s.tick.st } ∧ MemUnchanged s s.tick

/-- R258 (decision D21): while BLOCKED a tick offered to the timer is taken exactly when `P_TICKS_WHILE_BLOCKED`. That the
offer is used up in either case is log 11, the model's choice. -/
def Obligations.TicksWhileBlockedByParameter : Prop :=
  ∀ (s : State) (r : Reg),
    s.nextInput = .tick → s.run = .blocked r →
    ∃ t, step s = .next t ∧ t = { s.useInput with dt := t.dt, st := t.st } ∧
      (s.params.ticksWhileBlocked = true → t.dt.toNat = s.dt.toNat - 1 ∧ t.st.toNat = s.st.toNat - 1) ∧
      (s.params.ticksWhileBlocked = false → t.dt = s.dt ∧ t.st = s.st)

/-- §8 of the source, S10: n ticks lower a timer by n, and it "stays 0 on further ticks". -/
def Obligations.TicksCountDownToZeroAndStay : Prop :=
  ∀ (n : Nat) (s : State),
    s.run = .running → n ≤ s.inputs.length → (∀ e ∈ s.inputs.take n, e = .tick) →
    ∃ t, steps n s = .next t ∧ t.dt.toNat = s.dt.toNat - n ∧ t.st.toNat = s.st.toNat - n ∧
      t = { s with dt := t.dt, st := t.st, inputs := s.inputs.drop n, present := t.present }

/-- R46 (decision D32): cancel is enabled whenever Run is not HALTED, "including while BLOCKED", and changes Run alone. -/
def Obligations.CancelHaltsRunningAndBlocked : Prop :=
  ∀ s : State,
    s.nextInput = .cancel → (∀ h, s.run ≠ .halted h) →
    step s = .next { s.useInput with run := .halted ⟨.cancelled, none, none⟩ }

/-! ### Faults (60_exceptions.md) -/

/-- R285 (decision D7): a faulting engine step "writes none of V, I, SP, Stack, DT, ST, FB or Mem, and writes PC back to
a0"; "Its only effect is Run <- HALTED(h)". -/
def Obligations.FaultingStepChangesOnlyRun : Prop :=
  ∀ (s t : State) (h : HaltRecord),
    s.run = .running → s.engineNext = true → step s = .next t → t.run = .halted h →
    h.Recorded ∧ h.addr = some s.pc ∧ OnlyHalted h s t

/-- R280, R287 (decisions D19, D27, D29): an instruction faults exactly on its own check, with the reason the table gives,
and precisely; otherwise it ends in no halt. -/
def Obligations.EachInstructionFaultsExactlyOnItsOwnCheck : Prop :=
  ∀ (i : Instr) (s : State), s.run = .running →
    (∀ e, ownFault s i = some e → ∃ t, exec i s = .next t ∧ FaultsWith e i s t) ∧
    (ownFault s i = none → ∃ t, exec i s = .next t ∧ ∀ h, t.run ≠ .halted h)

/-- R280 (the numbers are the spec's own, D27), R44 (D37): the outputs. -/
def Obligations.OutputsFollowTheState : Prop :=
  ∀ s : State,
    (s.soundActive = true ↔ 0 < s.st.toNat) ∧
    (s.haltStatus = 0 ↔ ∀ h, s.run ≠ .halted h) ∧
    (∀ h, s.run = .halted h → s.haltStatus = h.reason.code) ∧
    (∀ e e' : HaltReason, e.code = e'.code → e = e') ∧
    [HaltReason.loadError, .unimplementedOpcode, .quit, .outOfBoundsAccess .fetch, .outOfBoundsAccess .read,
     .outOfBoundsAccess .write, .outOfBoundsAccess .stackOverflow, .outOfBoundsAccess .stackUnderflow,
     .outOfBoundsAccess .keyIndex, .cancelled].map HaltReason.code = [1, 2, 3, 4, 5, 6, 7, 8, 9, 10]

/-! ### Rules of the whole machine -/

/-- R28: the framebuffer is "mutated only by draw and clear operations". -/
def Obligations.FramebufferChangesOnlyByDrawAndClear : Prop :=
  ∀ s t : State, step s = .next t → t.fb ≠ s.fb → s.About .cls ∨ ∃ x y n, s.About (.drw x y n)

/-- R61: no step changes a byte of memory but one that executes Fx33 or Fx55. -/
def Obligations.MemoryChangesOnlyByTheTwoStores : Prop :=
  ∀ s t : State, step s = .next t → ¬ MemUnchanged s t → ∃ x, s.About (.ldBVx x) ∨ s.About (.ldMemVx x)

/-- R25 (decision D4): "Only 2nnn and 00EE read or write the stack and SP". -/
def Obligations.StackChangesOnlyByCallAndReturn : Prop :=
  ∀ s t : State, step s = .next t →
    (t.stack ≠ s.stack → ∃ nnn, s.About (.call nnn)) ∧
    (t.sp ≠ s.sp → s.About .ret ∨ ∃ nnn, s.About (.call nnn))

/-- R21, R22 (decisions D10, D13): an instruction writes no register but its destination, and VF where R22 lists it. -/
def Obligations.RegistersChangeOnlyAsDestinationOrFlag : Prop :=
  ∀ (i : Instr) (s t : State), exec i s = .next t → RegsUnchanged (regsWritten s.params i) s t

/-- R23, R26, R27, R124: I, DT, ST and PC change only by their writers, and no step changes a parameter (R7). -/
def Obligations.SpecialRegistersChangeOnlyByTheirWriters : Prop :=
  (∀ (i : Instr) (s t : State), exec i s = .next t →
    (t.i ≠ s.i → (∃ nnn, i = .ldI nnn) ∨ ∃ x, i = .addIVx x ∨ i = .ldFVx x ∨
      (s.params.ldstIncrementsI = true ∧ (i = .ldMemVx x ∨ i = .ldVxMem x))) ∧
    (t.dt ≠ s.dt → ∃ x, i = .ldDtVx x) ∧
    (t.st ≠ s.st → ∃ x, i = .ldStVx x) ∧
    (t.pc ≠ s.pc → (∃ h, t.run = .halted h) ∨ i = .ret ∨ (∃ nnn, i = .jp nnn ∨ i = .call nnn ∨ i = .jpV0 nnn) ∨
      (∃ x kk, i = .seVxKk x kk ∨ i = .sneVxKk x kk) ∨ (∃ x y, i = .seVxVy x y ∨ i = .sneVxVy x y) ∨
      ∃ x, i = .skpVx x ∨ i = .sknpVx x)) ∧
  (∀ s t : State, step s = .next t → t.params = s.params)

/-- R322 (decision D22): "DT and ST do not increase except by Fx15 or Fx18", and a timer that goes down without them goes
down by exactly 1, in a tick. -/
def Obligations.TimersRiseOnlyWhenLoaded : Prop :=
  ∀ s t : State, step s = .next t →
    ((∃ x, s.About (.ldDtVx x)) ∨ t.dt = s.dt ∨
      (s.nextInput = .tick ∧ 0 < s.dt.toNat ∧ t.dt.toNat = s.dt.toNat - 1)) ∧
    ((∃ x, s.About (.ldStVx x)) ∨ t.st = s.st ∨
      (s.nextInput = .tick ∧ 0 < s.st.toNat ∧ t.st.toNat = s.st.toNat - 1))

/-- R42, R233 (decision D33): a step raises Present exactly when it executes a Dxyn that does not fault. -/
def Obligations.PresentIsRaisedExactlyByDraws : Prop :=
  ∀ s t : State, step s = .next t →
    (t.present = true ↔ (∃ x y n, s.About (.drw x y n)) ∧ ∀ h, t.run ≠ .halted h)

/-- R40, R41 (decisions D14, D35): only Ex9E, ExA1 and Fx0A read the key sample, and only Cxkk reads the random byte. -/
def Obligations.SamplesMatterOnlyToTheirReaders : Prop :=
  ∀ (i : Instr) (s : State) (keys : Keys) (rand : Byte),
    ((∀ x, i ≠ .skpVx x ∧ i ≠ .sknpVx x ∧ i ≠ .ldVxK x) →
      ∃ t, exec i s = .next t ∧ exec i { s with keyIn := keys } = .next { t with keyIn := keys }) ∧
    ((∀ x kk, i ≠ .rndVxKk x kk) →
      ∃ t, exec i s = .next t ∧ exec i { s with randIn := rand } = .next { t with randIn := rand })

/-- R35 (the spec's own inference from R20 and R25): what stands in the stack slots at SP and above is never seen: from two
states that differ there alone, a step leads to two states that differ there alone, or stops alike. -/
def Obligations.DeadStackSlotsAreUnobservable : Prop :=
  ∀ s s' : State, SameButDeadSlots s s' →
    (∃ t t', step s = .next t ∧ step s' = .next t' ∧ SameButDeadSlots t t') ∨
    (∃ f, step s = .fault f ∧ step s' = .fault f)

/-- The invariant: memory stays in its canonical form (log 12), PC under the bound of R24 (the spec's own inference), the
occupied slots hold addresses up to 0x1000, and in HALTED the record has the shape of R280 with PC at its address
(R285). Every step keeps it. -/
def Obligations.StepKeepsTheInvariant : Prop :=
  ∀ s t : State, s.Inv → step s = .next t → t.Inv

/-- The invariant holds at reset. (That the stack is empty there is R32 by decision D2, log 6.) -/
def Obligations.ResetMeetsTheInvariant : Prop := State.reset.Inv

/-- The invariant holds after every load, whatever the image, the parameters and what the host has in store. After a
rejected load (an image longer than 3584 bytes) the spec gives memory, PC and the stack no value: for such an image those
clauses say what the model chose (log 10). After an accepted one the PC and the empty stack are R32's (log 6). -/
def Obligations.LoadMeetsTheInvariant : Prop :=
  ∀ (p : Params) (inputs : List Input) (rom : List Byte), (State.load p inputs rom).Inv

/-! ### Load and reset (70_reset_and_hazards.md) -/

/-- R310, R312, R32, R62 (decisions D1, D2, D3; logs 5, 6, 9, 10): what a load leaves. An image of up to 3584 bytes stands
at 0x200 between the font below and zeros, and every other component is at the reset value of R32: PC = 0x200 and RUNNING,
V0 to VF and I zero (D1, log 5), an empty stack of zeros, timers at zero and every pixel off (D2, log 6). A longer image
halts the core with LoadError. The reset state is the load of the empty image. -/
def Obligations.LoadPlacesFontAndRomOrHalts : Prop :=
  (∀ (p : Params) (inputs : List Input) (rom : List Byte), rom.length ≤ 3584 →
    (∀ (a : Nat) (ha : a < 80), (State.load p inputs rom).peek a = p.font[a]) ∧
    (∀ a, 80 ≤ a → a < 0x200 → (State.load p inputs rom).peek a = 0) ∧
    (∀ (k : Nat) (hk : k < rom.length), (State.load p inputs rom).peek (0x200 + k) = rom[k]) ∧
    (∀ a, 0x200 + rom.length ≤ a → (State.load p inputs rom).peek a = 0) ∧
    (State.load p inputs rom).pc = 0x200 ∧ (State.load p inputs rom).run = .running ∧
    (∀ r, (State.load p inputs rom).reg r = 0) ∧ (State.load p inputs rom).i = 0 ∧
    (State.load p inputs rom).sp = 0 ∧ (∀ k : Fin 16, (State.load p inputs rom).stack[k] = 0) ∧
    (State.load p inputs rom).dt = 0 ∧ (State.load p inputs rom).st = 0 ∧
    (∀ col row, (State.load p inputs rom).fb.pixel col row = false) ∧
    State.load p inputs rom =
      { State.reset with params := p, inputs := inputs, mem := (State.load p inputs rom).mem }) ∧
  (∀ (p : Params) (inputs : List Input) (rom : List Byte), 3584 < rom.length →
    (State.load p inputs rom).run = .halted ⟨.loadError, none, none⟩) ∧
  State.load Params.default [] [] = State.reset

/-- R311: the first engine step after a successful load fetches from 0x200, where the image stands verbatim, and the run
state is RUNNING. -/
def Obligations.EntryPointIs0x200 : Prop :=
  ∀ (p : Params) (inputs : List Input) (rom : List Byte), rom.length ≤ 3584 →
    (State.load p inputs rom).pc = 0x200 ∧ (State.load p inputs rom).run = .running ∧
    (∀ (k : Nat) (hk : k < rom.length), (State.load p inputs rom).peek (0x200 + k) = rom[k]) ∧
    fetch (State.load p inputs rom) =
      some (wordOfBytes ((State.load p inputs rom).peek 0x200) ((State.load p inputs rom).peek 0x201),
            { State.load p inputs rom with pc := 0x202 })

/-! ### SYS, QUIT and control transfer (40_engine.md, 41_control_flow.md) -/

/-- R125 (decision D24): SYS changes nothing. R126 (decision D23): QUIT always raises Quit, with the word and its address,
and changes nothing else. -/
def Obligations.SysDoesNothingAndQuitHalts : Prop :=
  (∀ (nnn : Addr) (s : State), exec (.sys nnn) s = .next s) ∧
  (∀ (op : Word) (s : State), ∃ t, exec (.quit op) s = .next t ∧ FaultsWith .quit (.quit op) s t ∧
    t.run = .halted ⟨.quit, some (s.pc - 2), some op⟩)

/-- R142: 1nnn is JP nnn; PC <- zext_16(nnn), and nothing else changes. A jump to its own address a0 (PC is a0 + 2 here) has
PC back at a0 with no other change; a jump to 0xFFF faults at the next fetch. -/
def Obligations.JumpSetsPcToTheTarget : Prop :=
  (∀ (quit : List Word) (op : Word), op ∉ quit → op &&& 0xF000 = 0x1000 →
    decodeWord quit op = .ok (.jp (op.extractLsb' 0 12))) ∧
  (∀ (nnn : Addr) (s : State), ∃ t, exec (.jp nnn) s = .next t ∧ OnlyPc s t ∧ t.pc.toNat = nnn.toNat ∧
    (s.pc.toNat = nnn.toNat + 2 → t = { s with pc := s.pc - 2 }) ∧
    (nnn = 0xFFF → fetch t = none))

/-- R143 (decision D4): CALL pushes the post-fetch PC and jumps; with 16 return addresses held it raises StackOverflow. -/
def Obligations.CallPushesThePostFetchPc : Prop :=
  ∀ (nnn : Addr) (s : State),
    (s.sp.val < 16 → ∃ t, exec (.call nnn) s = .next t ∧
      t = { s with pc := t.pc, stack := t.stack, sp := t.sp } ∧ RegsUnchanged [] s t ∧ MemUnchanged s t ∧
      t.pc.toNat = nnn.toNat ∧ t.sp.val = s.sp.val + 1 ∧
      ∀ k : Fin 16, t.stack[k] = if k.val = s.sp.val then s.pc else s.stack[k]) ∧
    (s.sp = 16 → ∃ t, exec (.call nnn) s = .next t ∧
      FaultsWith (.outOfBoundsAccess .stackOverflow) (.call nnn) s t)

/-- R141 (decision D4): RET "pops that value verbatim", leaves the slots as they are, and raises StackUnderflow on the empty
stack. -/
def Obligations.ReturnPopsThePc : Prop :=
  ∀ s : State,
    (∀ k : Fin 16, s.sp.val = k.val + 1 → ∃ t, exec .ret s = .next t ∧
      t = { s with pc := s.stack[k], sp := t.sp } ∧ t.sp.val = k.val ∧ RegsUnchanged [] s t ∧ MemUnchanged s t) ∧
    (s.sp = 0 → ∃ t, exec .ret s = .next t ∧ FaultsWith (.outOfBoundsAccess .stackUnderflow) .ret s t)

/-- §8 of the source, S9: from wherever the subroutine has come to, RET after CALL "returns to the instruction following the
original CALL; stack pointer returns to its pre-call value". -/
def Obligations.ReturnUndoesCall : Prop :=
  ∀ (nnn : Addr) (s t : State) (pc' : Word), s.sp.val < 16 → exec (.call nnn) s = .next t →
    ∃ u, exec .ret { t with pc := pc' } = .next u ∧ u = { s with stack := u.stack }

/-- R144 (decision D9, general knowledge G8): Bnnn jumps to nnn, plus V0 when `P_BNNN_ADDS_V0`, with no wrap. -/
def Obligations.IndexedJumpAddsV0ByParameter : Prop :=
  ∀ (nnn : Addr) (s : State), ∃ t, exec (.jpV0 nnn) s = .next t ∧ OnlyPc s t ∧
    t.pc.toNat = nnn.toNat + if s.params.bnnnAddsV0 = true then (s.reg 0).toNat else 0

/-- R145 to R149 (decision D8, general knowledge G2): the four register skips. -/
def Obligations.RegisterSkipsFollowTheirConditions : Prop :=
  ∀ (x y : Reg) (kk : Byte) (s : State),
    SkipsWhen (s.reg x = kk) (.seVxKk x kk) s ∧ SkipsWhen (s.reg x ≠ kk) (.sneVxKk x kk) s ∧
    SkipsWhen (s.reg x = s.reg y) (.seVxVy x y) s ∧ SkipsWhen (s.reg x ≠ s.reg y) (.sneVxVy x y) s

/-! ### Register loads and ALU (42_alu.md) -/

/-- R172: 6xkk is LD Vx, kk; V[x] <- kk, and nothing else changes (x = F writes VF). -/
def Obligations.LoadImmediateWritesItsRegister : Prop :=
  (∀ (quit : List Word) (op : Word), op ∉ quit → op &&& 0xF000 = 0x6000 →
    decodeWord quit op = .ok (.ldVxKk ⟨op.toNat / 0x100 % 16, Nat.mod_lt _ (Nat.succ_pos 15)⟩ (op.extractLsb' 0 8))) ∧
  (∀ (x : Reg) (kk : Byte) (s : State), ∃ t, exec (.ldVxKk x kk) s = .next t ∧ OnlyRegs [x] s t ∧ t.reg x = kk)

/-- R173 (general knowledge G9): 7xkk adds mod 256 and writes no carry: VF changes only as the destination. -/
def Obligations.AddImmediateWrapsAndLeavesVf : Prop :=
  ∀ (x : Reg) (kk : Byte) (s : State), ∃ t, exec (.addVxKk x kk) s = .next t ∧ OnlyRegs [x] s t ∧
    (t.reg x).toNat = ((s.reg x).toNat + kk.toNat) % 256

/-- R174, R183, R255 (general knowledge G1; decision D14): LD Vx, Vy copies; RND masks the random byte of the step, whatever
it is; LD Vx, DT reads the delay timer. -/
def Obligations.CopyRandomAndTimerReadWriteOneRegister : Prop :=
  ∀ (x y : Reg) (kk : Byte) (s : State),
    (∃ t, exec (.ldVxVy x y) s = .next t ∧ OnlyRegs [x] s t ∧ t.reg x = s.reg y) ∧
    (∃ t, exec (.rndVxKk x kk) s = .next t ∧ OnlyRegs [x] s t ∧
      ∀ b, b < 8 → (t.reg x).getLsbD b = (s.randIn.getLsbD b && kk.getLsbD b)) ∧
    (∃ t, exec (.ldVxDt x) s = .next t ∧ OnlyRegs [x] s t ∧ t.reg x = s.dt)

/-- R175 to R177, R171 (decision D13, general knowledge G1): OR, AND and XOR bit by bit, and VF <- 0 after them when
`P_LOGIC_RESETS_VF`; then x = F leaves VF = 0. -/
def Obligations.LogicOperationsActBitByBit : Prop :=
  ∀ (x y : Reg) (s : State) (i : Instr) (f : Bool → Bool → Bool),
    ((i = .orVxVy x y ∧ f = or) ∨ (i = .andVxVy x y ∧ f = and) ∨ (i = .xorVxVy x y ∧ f = xor)) →
    ∃ t, exec i s = .next t ∧
      OnlyRegs (if s.params.logicResetsVf = true then [x, .vf] else [x]) s t ∧
      (s.params.logicResetsVf = false ∨ x ≠ .vf →
        ∀ b, b < 8 → (t.reg x).getLsbD b = f ((s.reg x).getLsbD b) ((s.reg y).getLsbD b)) ∧
      (s.params.logicResetsVf = true → t.reg .vf = 0)

/-- R178, R171 (decision D10): 8xy4 on the untruncated sum; the carry is written last, so x = F leaves the carry. -/
def Obligations.AddWritesSumThenCarry : Prop :=
  ∀ (x y : Reg) (s : State), ∃ t, exec (.addVxVy x y) s = .next t ∧ OnlyRegs [x, .vf] s t ∧
    (x ≠ .vf → (t.reg x).toNat = ((s.reg x).toNat + (s.reg y).toNat) % 256) ∧
    (t.reg .vf).toNat = if (s.reg x).toNat + (s.reg y).toNat > 255 then 1 else 0

/-- R179, R181, R171 (decisions D10, D11, general knowledge G3): Vx − Vy and Vy − Vx mod 256, and not-borrow from the
original operands, `P_SUB_EQUAL_FLAG` when they are equal, written last. -/
def Obligations.SubtractionsWriteDifferenceThenNotBorrow : Prop :=
  ∀ (x y : Reg) (s : State) (i : Instr) (a b : Nat),
    ((i = .subVxVy x y ∧ a = (s.reg x).toNat ∧ b = (s.reg y).toNat) ∨
     (i = .subnVxVy x y ∧ a = (s.reg y).toNat ∧ b = (s.reg x).toNat)) →
    ∃ t, exec i s = .next t ∧ OnlyRegs [x, .vf] s t ∧
      (x ≠ .vf → (t.reg x).toNat = (a + 256 - b) % 256) ∧
      (t.reg .vf).toNat =
        if a > b then 1 else if a < b then 0 else if s.params.subEqualFlag = true then 1 else 0

/-- R180, R182, R171 (decisions D10, D12): logical shifts of Vx by one, whatever y is, and the bit shifted out of the
original value, written last. -/
def Obligations.ShiftsWriteResultThenTheBitShiftedOut : Prop :=
  ∀ (x y : Reg) (s : State),
    (∃ t, exec (.shrVx x y) s = .next t ∧ OnlyRegs [x, .vf] s t ∧
      (x ≠ .vf → (t.reg x).toNat = (s.reg x).toNat / 2) ∧ (t.reg .vf).toNat = (s.reg x).toNat % 2) ∧
    (∃ t, exec (.shlVx x y) s = .next t ∧ OnlyRegs [x, .vf] s t ∧
      (x ≠ .vf → (t.reg x).toNat = (s.reg x).toNat * 2 % 256) ∧ (t.reg .vf).toNat = (s.reg x).toNat / 128)

/-! ### Index register and memory transfer (43_index_memory.md) -/

/-- R201: Annn is LD I, nnn; I <- zext_16(nnn), "and PC is not changed", nor anything else. -/
def Obligations.LoadIndexSetsIAlone : Prop :=
  (∀ (quit : List Word) (op : Word), op ∉ quit → op &&& 0xF000 = 0xA000 →
    decodeWord quit op = .ok (.ldI (op.extractLsb' 0 12))) ∧
  (∀ (nnn : Addr) (s : State), ∃ t, exec (.ldI nnn) s = .next t ∧ t = { s with i := t.i } ∧
    RegsUnchanged [] s t ∧ MemUnchanged s t ∧ t.i.toNat = nnn.toNat)

/-- R202, R203 (decisions D15, D16, general knowledge G1): Fx1E adds mod 2^16 and leaves VF; Fx29 points I at glyph d,
5 · d, with d by `P_FONT_INDEX`. -/
def Obligations.IndexAddAndGlyphAddress : Prop :=
  ∀ (x : Reg) (s : State),
    (∃ t, exec (.addIVx x) s = .next t ∧ t = { s with i := t.i } ∧ RegsUnchanged [] s t ∧ MemUnchanged s t ∧
      t.i.toNat = (s.i.toNat + (s.reg x).toNat) % 0x10000) ∧
    (∃ t, exec (.ldFVx x) s = .next t ∧ t = { s with i := t.i } ∧ RegsUnchanged [] s t ∧ MemUnchanged s t ∧
      (s.params.fontIndex = .lowNibble → t.i.toNat = 5 * ((s.reg x).toNat % 16)) ∧
      (s.params.fontIndex = .fullByte → t.i.toNat = 5 * (s.reg x).toNat))

/-- R204 (decision D18, general knowledge G4): Fx33 stores the three decimal digits of Vx from I on, hundreds first, and
changes nothing else; it raises OutOfBoundsAccess(Write) if I + 2 > 0xFFF. -/
def Obligations.BcdStoresThreeDigits : Prop :=
  ∀ (x : Reg) (s : State),
    (s.effAddr 2 ≤ 0xFFF → ∃ t, exec (.ldBVx x) s = .next t ∧ t = { s with mem := t.mem } ∧ RegsUnchanged [] s t ∧
      (t.peek (s.effAddr 0)).toNat = (s.reg x).toNat / 100 ∧
      (t.peek (s.effAddr 1)).toNat = (s.reg x).toNat / 10 % 10 ∧
      (t.peek (s.effAddr 2)).toNat = (s.reg x).toNat % 10 ∧
      MemUnchangedOutside (s.effAddr 0) 3 s t) ∧
    (0xFFF < s.effAddr 2 → ∃ t, exec (.ldBVx x) s = .next t ∧
      FaultsWith (.outOfBoundsAccess .write) (.ldBVx x) s t)

/-- R205 (decision D17): Fx55 stores V0..Vx from I on; I moves on by x + 1 only when `P_LDST_INCREMENTS_I`; it raises
OutOfBoundsAccess(Write) if I + x > 0xFFF. -/
def Obligations.RegisterDumpStoresV0ToVx : Prop :=
  ∀ (x : Reg) (s : State),
    (s.effAddr x.val ≤ 0xFFF → ∃ t, exec (.ldMemVx x) s = .next t ∧ t = { s with mem := t.mem, i := t.i } ∧
      RegsUnchanged [] s t ∧
      (∀ k : Reg, k ≤ x → t.peek (s.effAddr k.val) = s.reg k) ∧
      MemUnchangedOutside (s.effAddr 0) (x.val + 1) s t ∧
      t.i.toNat = if s.params.ldstIncrementsI = true then (s.i.toNat + x.val + 1) % 0x10000 else s.i.toNat) ∧
    (0xFFF < s.effAddr x.val → ∃ t, exec (.ldMemVx x) s = .next t ∧
      FaultsWith (.outOfBoundsAccess .write) (.ldMemVx x) s t)

/-- R206 (decision D17): Fx65 loads V0..Vx from I on and leaves the other registers and memory; I as in R205; it raises
OutOfBoundsAccess(Read) if I + x > 0xFFF. -/
def Obligations.RegisterLoadFillsV0ToVx : Prop :=
  ∀ (x : Reg) (s : State),
    (s.effAddr x.val ≤ 0xFFF → ∃ t, exec (.ldVxMem x) s = .next t ∧ t = { s with v := t.v, i := t.i } ∧
      MemUnchanged s t ∧
      (∀ k : Reg, k ≤ x → t.reg k = s.peek (s.effAddr k.val)) ∧ (∀ k : Reg, x < k → t.reg k = s.reg k) ∧
      t.i.toNat = if s.params.ldstIncrementsI = true then (s.i.toNat + x.val + 1) % 0x10000 else s.i.toNat) ∧
    (0xFFF < s.effAddr x.val → ∃ t, exec (.ldVxMem x) s = .next t ∧
      FaultsWith (.outOfBoundsAccess .read) (.ldVxMem x) s t)

/-- R74, R321 (decision D28): wherever Fx55 or Fx33 stores, the very next fetch reads the stored bytes where it stored
and what was there elsewhere. -/
def Obligations.StoreIsSeenByTheNextFetch : Prop :=
  ∀ (x : Reg) (s : State), s.pc.toNat + 1 ≤ 0xFFF →
    (s.effAddr x.val ≤ 0xFFF → ∃ t, exec (.ldMemVx x) s = .next t ∧ t.pc = s.pc ∧
      FetchSees (fun a => if s.effAddr 0 ≤ a ∧ a ≤ s.effAddr x.val then s.reg (Fin.ofNat 16 (a - s.effAddr 0)) else s.peek a)
        t) ∧
    (s.effAddr 2 ≤ 0xFFF → ∃ t, exec (.ldBVx x) s = .next t ∧ t.pc = s.pc ∧
      FetchSees (fun a =>
        if a = s.effAddr 0 then BitVec.ofNat 8 ((s.reg x).toNat / 100)
        else if a = s.effAddr 1 then BitVec.ofNat 8 ((s.reg x).toNat / 10 % 10)
        else if a = s.effAddr 2 then BitVec.ofNat 8 ((s.reg x).toNat % 10)
        else s.peek a) t)

/-! ### Framebuffer (44_display.md) -/

/-- R230: CLS resets all pixels off, and changes nothing else; it raises no Present (decision D33). -/
def Obligations.ClearTurnsEveryPixelOff : Prop :=
  ∀ s : State, ∃ t, exec .cls s = .next t ∧ t = { s with fb := t.fb } ∧ RegsUnchanged [] s t ∧ MemUnchanged s t ∧
    ∀ col row, t.fb.pixel col row = false

/-- R231, R232, R233 (decisions D26, D33, general knowledge G6): Dxyn inverts exactly the pixels that the sprite's set bits
land on, wrapping per pixel; VF is 1 exactly when one of them was on; Present is raised; nothing else changes. If a
sprite byte lies above 0xFFF it raises OutOfBoundsAccess(Read), and n = 0 makes no check. -/
def Obligations.DrawXorsTheSpriteAndReportsCollision : Prop :=
  ∀ (x y : Reg) (n : Nibble) (s : State),
    (n.toNat = 0 ∨ s.i.toNat + n.toNat - 1 ≤ 0xFFF →
      ∃ t, exec (.drw x y n) s = .next t ∧ t = { s with v := t.v, fb := t.fb, present := true } ∧
        RegsUnchanged [.vf] s t ∧ MemUnchanged s t ∧
        (∀ col row,
          (SpriteCovers s (s.reg x).toNat (s.reg y).toNat n.toNat col row →
            t.fb.pixel col row = !s.fb.pixel col row) ∧
          (¬ SpriteCovers s (s.reg x).toNat (s.reg y).toNat n.toNat col row →
            t.fb.pixel col row = s.fb.pixel col row)) ∧
        ((∃ col row, SpriteCovers s (s.reg x).toNat (s.reg y).toNat n.toNat col row ∧
            s.fb.pixel col row = true) → t.reg .vf = 1) ∧
        ((∀ col row, SpriteCovers s (s.reg x).toNat (s.reg y).toNat n.toNat col row →
            s.fb.pixel col row = false) → t.reg .vf = 0)) ∧
    (0 < n.toNat → 0xFFF < s.i.toNat + n.toNat - 1 →
      ∃ t, exec (.drw x y n) s = .next t ∧ FaultsWith (.outOfBoundsAccess .read) (.drw x y n) s t)

/-- §8 of the source, S7, for every sprite: drawing it twice at the same place (x and y not VF, which the first draw
writes) restores the framebuffer, and the second draw collides exactly when the first one turned a pixel on. -/
def Obligations.DrawingTwiceRestoresTheFramebuffer : Prop :=
  ∀ (x y : Reg) (n : Nibble) (s : State), x ≠ .vf → y ≠ .vf →
    (n.toNat = 0 ∨ s.i.toNat + n.toNat - 1 ≤ 0xFFF) →
    ∃ t u, exec (.drw x y n) s = .next t ∧ exec (.drw x y n) t = .next u ∧ u.fb = s.fb ∧
      (u.reg .vf = 1 ↔ ∃ col row, s.fb.pixel col row = false ∧ t.fb.pixel col row = true)

/-! ### Keys and timers (45_timers_input.md) -/

/-- R250 to R252 (decisions D19, D35, general knowledge G2): Ex9E skips when the key Vx names is pressed in this step's
sample, ExA1 when it is not; Vx > 0xF raises OutOfBoundsAccess(KeyIndex). -/
def Obligations.KeySkipsFollowTheSample : Prop :=
  ∀ (x : Reg) (s : State),
    (∀ k : Reg, (s.reg x).toNat = k.val →
      SkipsWhen (s.keyIn[k] = true) (.skpVx x) s ∧ SkipsWhen (s.keyIn[k] = false) (.sknpVx x) s) ∧
    (0xF < (s.reg x).toNat →
      (∃ t, exec (.skpVx x) s = .next t ∧ FaultsWith (.outOfBoundsAccess .keyIndex) (.skpVx x) s t) ∧
      (∃ t, exec (.sknpVx x) s = .next t ∧ FaultsWith (.outOfBoundsAccess .keyIndex) (.sknpVx x) s t))

/-- R253 (decision D20): Fx0A with a key pressed completes at once with the lowest one; with none it enters BLOCKED(x). PC
stays at a0 + 2 either way. -/
def Obligations.KeyWaitCompletesOrBlocks : Prop :=
  ∀ (x : Reg) (s : State),
    (∀ k, LowestPressed s.keyIn k →
      ∃ t, exec (.ldVxK x) s = .next t ∧ OnlyRegs [x] s t ∧ (t.reg x).toNat = k.val) ∧
    (NonePressed s.keyIn → exec (.ldVxK x) s = .next { s with run := .blocked x })

/-- R256, R257, R44 (general knowledge G1; decision D37): Fx15 and Fx18 set their timer alone, and soundActive follows ST at
once. -/
def Obligations.TimerLoadsSetOneTimer : Prop :=
  ∀ (x : Reg) (s : State),
    (∃ t, exec (.ldDtVx x) s = .next t ∧ t = { s with dt := t.dt } ∧ RegsUnchanged [] s t ∧ MemUnchanged s t ∧
      t.dt = s.reg x) ∧
    (∃ t, exec (.ldStVx x) s = .next t ∧ t = { s with st := t.st } ∧ RegsUnchanged [] s t ∧ MemUnchanged s t ∧
      t.st = s.reg x ∧ (t.soundActive = true ↔ 0 < (s.reg x).toNat))
end

