-- ==== Sys2Proof/Laws/Encoding.lean ====
section
/-! SUPPORT. Sys2Proof/Laws/Encoding.lean: the masks of the opcode table and the fields of a word as arithmetic, and each
field of an encoded word. -/

namespace Sys2Proof

/-! ### Fields as numbers -/

theorem fieldA_toNat (w : Word) : (fieldA w).toNat = w.toNat / 4096 := by
  have := w.isLt; simp [fieldA]; omega
theorem fieldX_val (w : Word) : (fieldX w).val = w.toNat / 256 % 16 := by simp [fieldX]; omega
theorem fieldY_val (w : Word) : (fieldY w).val = w.toNat / 16 % 16 := by simp [fieldY]; omega
theorem fieldN_toNat (w : Word) : (fieldN w).toNat = w.toNat % 16 := by simp [fieldN]
theorem fieldKk_toNat (w : Word) : (fieldKk w).toNat = w.toNat % 256 := by simp [fieldKk]
theorem fieldNnn_toNat (w : Word) : (fieldNnn w).toNat = w.toNat % 4096 := by simp [fieldNnn]

theorem wordNnn_toNat {a : Nat} (ha : a < 16) (nnn : Addr) : (wordNnn a nnn).toNat = a * 4096 + nnn.toNat := by
  have := nnn.isLt; simp [wordNnn]; omega
theorem wordXkk_toNat {a : Nat} (ha : a < 16) (x : Reg) (kk : Byte) :
    (wordXkk a x kk).toNat = a * 4096 + x.val * 256 + kk.toNat := by
  have := kk.isLt; simp [wordXkk]; omega
theorem wordXyn_toNat {a : Nat} (ha : a < 16) (x y : Reg) (n : Nibble) :
    (wordXyn a x y n).toNat = a * 4096 + x.val * 256 + y.val * 16 + n.toNat := by
  have := n.isLt; simp [wordXyn]; omega

/-! ### Masks as numbers -/

/-- The bits from `lo` up, below 2^16. -/
theorem and_high {n : Nat} (hn : n < 65536) (lo : Nat) (hlo : lo ≤ 16) :
    n &&& ((2 ^ (16 - lo) - 1) <<< lo) = (n >>> lo) <<< lo := by
  apply Nat.eq_of_testBit_eq
  intro k
  simp only [Nat.testBit_and, Nat.testBit_shiftLeft, Nat.testBit_shiftRight, Nat.testBit_two_pow_sub_one]
  by_cases hk : lo ≤ k
  · have e : lo + (k - lo) = k := by omega
    by_cases h16 : k < 16
    · have : k - lo < 16 - lo := by omega
      simp [hk, e, this]
    · have : n.testBit k = false := Nat.testBit_lt_two_pow (Nat.lt_of_lt_of_le hn
        (by simpa using Nat.pow_le_pow_right (n := 2) (by omega) (show 16 ≤ k by omega)))
      simp [this, e]
  · simp [hk]

theorem and_F000 (w : Word) : (w &&& 0xF000).toNat = w.toNat / 4096 * 4096 := by
  have h := and_high w.isLt 12 (by omega)
  rw [Nat.shiftRight_eq_div_pow, Nat.shiftLeft_eq, Nat.shiftLeft_eq] at h
  simpa using h

theorem and_low {n : Nat} (k : Nat) : n &&& (2 ^ k - 1) = n % 2 ^ k := Nat.and_two_pow_sub_one_eq_mod n k

theorem and_split {n : Nat} (hn : n < 65536) (k : Nat) (hk : k ≤ 12) :
    n &&& (0xF000 ||| (2 ^ k - 1)) = n / 4096 * 4096 + n % 2 ^ k := by
  have h := and_high hn 12 (by omega)
  rw [Nat.shiftRight_eq_div_pow, Nat.shiftLeft_eq, Nat.shiftLeft_eq] at h
  have hlt : n % 2 ^ k < 2 ^ 12 := Nat.lt_of_lt_of_le (Nat.mod_lt _ (by positivity)) (Nat.pow_le_pow_right (by omega) hk)
  have e := Nat.shiftLeft_add_eq_or_of_lt hlt (n / 4096)
  rw [Nat.shiftLeft_eq] at e
  rw [Nat.and_or_distrib_left, and_low]
  simp only [Nat.reducePow, Nat.reduceSub, Nat.reduceMul] at h e ⊢
  rw [h, e]

theorem and_F00F (w : Word) : (w &&& 0xF00F).toNat = w.toNat / 4096 * 4096 + w.toNat % 16 := by
  simpa using and_split w.isLt 4 (by omega)

theorem and_F0FF (w : Word) : (w &&& 0xF0FF).toNat = w.toNat / 4096 * 4096 + w.toNat % 256 := by
  simpa using and_split w.isLt 8 (by omega)

/-! ### Rows -/

theorem matches_F000 {c : Word} {w : Word} (h : w.toNat / 4096 * 4096 = c.toNat) : OpRow.matches ⟨c, 0xF000⟩ w = true := by
  simp only [OpRow.matches, beq_iff_eq]
  exact BitVec.eq_of_toNat_eq (by rw [and_F000, h])

theorem matches_F00F {c : Word} {w : Word} (h : w.toNat / 4096 * 4096 + w.toNat % 16 = c.toNat) :
    OpRow.matches ⟨c, 0xF00F⟩ w = true := by
  simp only [OpRow.matches, beq_iff_eq]
  exact BitVec.eq_of_toNat_eq (by rw [and_F00F, h])

theorem matches_F0FF {c : Word} {w : Word} (h : w.toNat / 4096 * 4096 + w.toNat % 256 = c.toNat) :
    OpRow.matches ⟨c, 0xF0FF⟩ w = true := by
  simp only [OpRow.matches, beq_iff_eq]
  exact BitVec.eq_of_toNat_eq (by rw [and_F0FF, h])

/-- A row with four fixed nibbles matches its own word. -/
theorem matches_exact (c : Word) : OpRow.matches ⟨c, 0xFFFF⟩ c = true := by
  simp only [OpRow.matches, beq_iff_eq]
  exact BitVec.and_allOnes (x := c)

/-! ### The fields of an encoded word, and the word from its fields -/

theorem fieldA_wordNnn {a : Nat} (ha : a < 16) (nnn : Addr) : fieldA (wordNnn a nnn) = BitVec.ofNat 4 a := by
  apply BitVec.eq_of_toNat_eq; rw [fieldA_toNat, wordNnn_toNat ha]; have := nnn.isLt; simp; omega
theorem fieldNnn_wordNnn {a : Nat} (ha : a < 16) (nnn : Addr) : fieldNnn (wordNnn a nnn) = nnn := by
  apply BitVec.eq_of_toNat_eq; rw [fieldNnn_toNat, wordNnn_toNat ha]; have := nnn.isLt; omega
theorem fieldA_wordXkk {a : Nat} (ha : a < 16) (x : Reg) (kk : Byte) : fieldA (wordXkk a x kk) = BitVec.ofNat 4 a := by
  apply BitVec.eq_of_toNat_eq; rw [fieldA_toNat, wordXkk_toNat ha]; have := kk.isLt; simp; omega
theorem fieldX_wordXkk {a : Nat} (ha : a < 16) (x : Reg) (kk : Byte) : fieldX (wordXkk a x kk) = x := by
  apply Fin.ext; rw [fieldX_val, wordXkk_toNat ha]; have := kk.isLt; omega
theorem fieldKk_wordXkk {a : Nat} (ha : a < 16) (x : Reg) (kk : Byte) : fieldKk (wordXkk a x kk) = kk := by
  apply BitVec.eq_of_toNat_eq; rw [fieldKk_toNat, wordXkk_toNat ha]; have := kk.isLt; omega
theorem fieldA_wordXyn {a : Nat} (ha : a < 16) (x y : Reg) (n : Nibble) :
    fieldA (wordXyn a x y n) = BitVec.ofNat 4 a := by
  apply BitVec.eq_of_toNat_eq; rw [fieldA_toNat, wordXyn_toNat ha]; have := n.isLt; simp; omega
theorem fieldX_wordXyn {a : Nat} (ha : a < 16) (x y : Reg) (n : Nibble) : fieldX (wordXyn a x y n) = x := by
  apply Fin.ext; rw [fieldX_val, wordXyn_toNat ha]; have := n.isLt; omega
theorem fieldY_wordXyn {a : Nat} (ha : a < 16) (x y : Reg) (n : Nibble) : fieldY (wordXyn a x y n) = y := by
  apply Fin.ext; rw [fieldY_val, wordXyn_toNat ha]; have := n.isLt; omega
theorem fieldN_wordXyn {a : Nat} (ha : a < 16) (x y : Reg) (n : Nibble) : fieldN (wordXyn a x y n) = n := by
  apply BitVec.eq_of_toNat_eq; rw [fieldN_toNat, wordXyn_toNat ha]; have := n.isLt; omega

theorem wordNnn_fields (op : Word) {a : Nat} (ha : a < 16) (h : fieldA op = BitVec.ofNat 4 a) :
    wordNnn a (fieldNnn op) = op := by
  apply BitVec.eq_of_toNat_eq
  have h2 := congrArg BitVec.toNat h
  rw [fieldA_toNat] at h2; rw [wordNnn_toNat ha, fieldNnn_toNat]; simp at h2; omega
theorem wordXkk_fields (op : Word) {a : Nat} (ha : a < 16) (h : fieldA op = BitVec.ofNat 4 a) :
    wordXkk a (fieldX op) (fieldKk op) = op := by
  apply BitVec.eq_of_toNat_eq
  have h2 := congrArg BitVec.toNat h
  rw [fieldA_toNat] at h2; rw [wordXkk_toNat ha, fieldX_val, fieldKk_toNat]; simp at h2; omega
theorem wordXyn_fields (op : Word) {a : Nat} (ha : a < 16) (h : fieldA op = BitVec.ofNat 4 a) :
    wordXyn a (fieldX op) (fieldY op) (fieldN op) = op := by
  apply BitVec.eq_of_toNat_eq
  have h2 := congrArg BitVec.toNat h
  rw [fieldA_toNat] at h2; rw [wordXyn_toNat ha, fieldX_val, fieldY_val, fieldN_toNat]; simp at h2; omega

/-- The word of two bytes, as a number. -/
theorem wordOfBytes_eq {hi lo : Byte} {op : Word} (h : op.toNat = hi.toNat * 0x100 + lo.toNat) :
    wordOfBytes hi lo = op := by
  apply BitVec.eq_of_toNat_eq; have := hi.isLt; have := lo.isLt; simp [wordOfBytes]; omega

/-! ### The bytes of a word -/

/-- Laying a word out high byte first and reading it back gives the word (20_memory.md R69). -/
@[simp] theorem wordOfBytes_bytes (w : Word) : wordOfBytes (highByte w) (lowByte w) = w := by
  apply BitVec.eq_of_toNat_eq; simp [wordOfBytes, highByte, lowByte]; omega

end Sys2Proof
end

