-- ==== Sys2Proof/Laws/State.lean ====
section
/-! SUPPORT. Sys2Proof/Laws/State.lean: one lemma per field per update of the state, and what the readers `reg` and `peek`
see after each update. -/

namespace Sys2Proof.Machine

variable (s : State)

/-! ### setReg -/

@[simp] theorem setReg_mem (r : Reg) (b : Byte) : (s.setReg r b).mem = s.mem := rfl
@[simp] theorem setReg_i (r : Reg) (b : Byte) : (s.setReg r b).i = s.i := rfl
@[simp] theorem setReg_pc (r : Reg) (b : Byte) : (s.setReg r b).pc = s.pc := rfl
@[simp] theorem setReg_stack (r : Reg) (b : Byte) : (s.setReg r b).stack = s.stack := rfl
@[simp] theorem setReg_sp (r : Reg) (b : Byte) : (s.setReg r b).sp = s.sp := rfl
@[simp] theorem setReg_dt (r : Reg) (b : Byte) : (s.setReg r b).dt = s.dt := rfl
@[simp] theorem setReg_st (r : Reg) (b : Byte) : (s.setReg r b).st = s.st := rfl
@[simp] theorem setReg_fb (r : Reg) (b : Byte) : (s.setReg r b).fb = s.fb := rfl
@[simp] theorem setReg_run (r : Reg) (b : Byte) : (s.setReg r b).run = s.run := rfl
@[simp] theorem setReg_params (r : Reg) (b : Byte) : (s.setReg r b).params = s.params := rfl
@[simp] theorem setReg_inputs (r : Reg) (b : Byte) : (s.setReg r b).inputs = s.inputs := rfl
@[simp] theorem setReg_draws (r : Reg) (b : Byte) : (s.setReg r b).draws = s.draws := rfl
@[simp] theorem setReg_keyIn (r : Reg) (b : Byte) : (s.setReg r b).keyIn = s.keyIn := rfl
@[simp] theorem setReg_randIn (r : Reg) (b : Byte) : (s.setReg r b).randIn = s.randIn := rfl
@[simp] theorem setReg_present (r : Reg) (b : Byte) : (s.setReg r b).present = s.present := rfl

/-! ### poke -/

@[simp] theorem poke_v (a : Nat) (b : Byte) : (s.poke a b).v = s.v := rfl
@[simp] theorem poke_i (a : Nat) (b : Byte) : (s.poke a b).i = s.i := rfl
@[simp] theorem poke_pc (a : Nat) (b : Byte) : (s.poke a b).pc = s.pc := rfl
@[simp] theorem poke_stack (a : Nat) (b : Byte) : (s.poke a b).stack = s.stack := rfl
@[simp] theorem poke_sp (a : Nat) (b : Byte) : (s.poke a b).sp = s.sp := rfl
@[simp] theorem poke_dt (a : Nat) (b : Byte) : (s.poke a b).dt = s.dt := rfl
@[simp] theorem poke_st (a : Nat) (b : Byte) : (s.poke a b).st = s.st := rfl
@[simp] theorem poke_fb (a : Nat) (b : Byte) : (s.poke a b).fb = s.fb := rfl
@[simp] theorem poke_run (a : Nat) (b : Byte) : (s.poke a b).run = s.run := rfl
@[simp] theorem poke_params (a : Nat) (b : Byte) : (s.poke a b).params = s.params := rfl
@[simp] theorem poke_inputs (a : Nat) (b : Byte) : (s.poke a b).inputs = s.inputs := rfl
@[simp] theorem poke_draws (a : Nat) (b : Byte) : (s.poke a b).draws = s.draws := rfl
@[simp] theorem poke_keyIn (a : Nat) (b : Byte) : (s.poke a b).keyIn = s.keyIn := rfl
@[simp] theorem poke_randIn (a : Nat) (b : Byte) : (s.poke a b).randIn = s.randIn := rfl
@[simp] theorem poke_present (a : Nat) (b : Byte) : (s.poke a b).present = s.present := rfl

/-! ### skipIf -/

@[simp] theorem skipIf_mem (c : Bool) : (s.skipIf c).mem = s.mem := rfl
@[simp] theorem skipIf_v (c : Bool) : (s.skipIf c).v = s.v := rfl
@[simp] theorem skipIf_i (c : Bool) : (s.skipIf c).i = s.i := rfl
@[simp] theorem skipIf_stack (c : Bool) : (s.skipIf c).stack = s.stack := rfl
@[simp] theorem skipIf_sp (c : Bool) : (s.skipIf c).sp = s.sp := rfl
@[simp] theorem skipIf_dt (c : Bool) : (s.skipIf c).dt = s.dt := rfl
@[simp] theorem skipIf_st (c : Bool) : (s.skipIf c).st = s.st := rfl
@[simp] theorem skipIf_fb (c : Bool) : (s.skipIf c).fb = s.fb := rfl
@[simp] theorem skipIf_run (c : Bool) : (s.skipIf c).run = s.run := rfl
@[simp] theorem skipIf_params (c : Bool) : (s.skipIf c).params = s.params := rfl
@[simp] theorem skipIf_inputs (c : Bool) : (s.skipIf c).inputs = s.inputs := rfl
@[simp] theorem skipIf_draws (c : Bool) : (s.skipIf c).draws = s.draws := rfl
@[simp] theorem skipIf_keyIn (c : Bool) : (s.skipIf c).keyIn = s.keyIn := rfl
@[simp] theorem skipIf_randIn (c : Bool) : (s.skipIf c).randIn = s.randIn := rfl
@[simp] theorem skipIf_present (c : Bool) : (s.skipIf c).present = s.present := rfl

/-! ### advanceI -/

@[simp] theorem advanceI_mem (x : Reg) : (s.advanceI x).mem = s.mem := rfl
@[simp] theorem advanceI_v (x : Reg) : (s.advanceI x).v = s.v := rfl
@[simp] theorem advanceI_pc (x : Reg) : (s.advanceI x).pc = s.pc := rfl
@[simp] theorem advanceI_stack (x : Reg) : (s.advanceI x).stack = s.stack := rfl
@[simp] theorem advanceI_sp (x : Reg) : (s.advanceI x).sp = s.sp := rfl
@[simp] theorem advanceI_dt (x : Reg) : (s.advanceI x).dt = s.dt := rfl
@[simp] theorem advanceI_st (x : Reg) : (s.advanceI x).st = s.st := rfl
@[simp] theorem advanceI_fb (x : Reg) : (s.advanceI x).fb = s.fb := rfl
@[simp] theorem advanceI_run (x : Reg) : (s.advanceI x).run = s.run := rfl
@[simp] theorem advanceI_params (x : Reg) : (s.advanceI x).params = s.params := rfl
@[simp] theorem advanceI_inputs (x : Reg) : (s.advanceI x).inputs = s.inputs := rfl
@[simp] theorem advanceI_draws (x : Reg) : (s.advanceI x).draws = s.draws := rfl
@[simp] theorem advanceI_keyIn (x : Reg) : (s.advanceI x).keyIn = s.keyIn := rfl
@[simp] theorem advanceI_randIn (x : Reg) : (s.advanceI x).randIn = s.randIn := rfl
@[simp] theorem advanceI_present (x : Reg) : (s.advanceI x).present = s.present := rfl

/-! ### takeFault -/

@[simp] theorem takeFault_mem (e : HaltReason) (a0 : Word) (op : Option Word) : (takeFault e a0 op s).mem = s.mem := rfl
@[simp] theorem takeFault_v (e : HaltReason) (a0 : Word) (op : Option Word) : (takeFault e a0 op s).v = s.v := rfl
@[simp] theorem takeFault_i (e : HaltReason) (a0 : Word) (op : Option Word) : (takeFault e a0 op s).i = s.i := rfl
@[simp] theorem takeFault_stack (e : HaltReason) (a0 : Word) (op : Option Word) : (takeFault e a0 op s).stack = s.stack := rfl
@[simp] theorem takeFault_sp (e : HaltReason) (a0 : Word) (op : Option Word) : (takeFault e a0 op s).sp = s.sp := rfl
@[simp] theorem takeFault_dt (e : HaltReason) (a0 : Word) (op : Option Word) : (takeFault e a0 op s).dt = s.dt := rfl
@[simp] theorem takeFault_st (e : HaltReason) (a0 : Word) (op : Option Word) : (takeFault e a0 op s).st = s.st := rfl
@[simp] theorem takeFault_fb (e : HaltReason) (a0 : Word) (op : Option Word) : (takeFault e a0 op s).fb = s.fb := rfl
@[simp] theorem takeFault_params (e : HaltReason) (a0 : Word) (op : Option Word) : (takeFault e a0 op s).params = s.params := rfl
@[simp] theorem takeFault_inputs (e : HaltReason) (a0 : Word) (op : Option Word) : (takeFault e a0 op s).inputs = s.inputs := rfl
@[simp] theorem takeFault_draws (e : HaltReason) (a0 : Word) (op : Option Word) : (takeFault e a0 op s).draws = s.draws := rfl
@[simp] theorem takeFault_keyIn (e : HaltReason) (a0 : Word) (op : Option Word) : (takeFault e a0 op s).keyIn = s.keyIn := rfl
@[simp] theorem takeFault_randIn (e : HaltReason) (a0 : Word) (op : Option Word) : (takeFault e a0 op s).randIn = s.randIn := rfl
@[simp] theorem takeFault_present (e : HaltReason) (a0 : Word) (op : Option Word) : (takeFault e a0 op s).present = s.present := rfl

/-! ### raise -/

@[simp] theorem raise_mem (e : HaltReason) (op : Word) : (raise e op s).mem = s.mem := rfl
@[simp] theorem raise_v (e : HaltReason) (op : Word) : (raise e op s).v = s.v := rfl
@[simp] theorem raise_i (e : HaltReason) (op : Word) : (raise e op s).i = s.i := rfl
@[simp] theorem raise_stack (e : HaltReason) (op : Word) : (raise e op s).stack = s.stack := rfl
@[simp] theorem raise_sp (e : HaltReason) (op : Word) : (raise e op s).sp = s.sp := rfl
@[simp] theorem raise_dt (e : HaltReason) (op : Word) : (raise e op s).dt = s.dt := rfl
@[simp] theorem raise_st (e : HaltReason) (op : Word) : (raise e op s).st = s.st := rfl
@[simp] theorem raise_fb (e : HaltReason) (op : Word) : (raise e op s).fb = s.fb := rfl
@[simp] theorem raise_params (e : HaltReason) (op : Word) : (raise e op s).params = s.params := rfl
@[simp] theorem raise_inputs (e : HaltReason) (op : Word) : (raise e op s).inputs = s.inputs := rfl
@[simp] theorem raise_draws (e : HaltReason) (op : Word) : (raise e op s).draws = s.draws := rfl
@[simp] theorem raise_keyIn (e : HaltReason) (op : Word) : (raise e op s).keyIn = s.keyIn := rfl
@[simp] theorem raise_randIn (e : HaltReason) (op : Word) : (raise e op s).randIn = s.randIn := rfl
@[simp] theorem raise_present (e : HaltReason) (op : Word) : (raise e op s).present = s.present := rfl

/-! ### cancel -/

@[simp] theorem cancel_mem : s.cancel.mem = s.mem := rfl
@[simp] theorem cancel_v : s.cancel.v = s.v := rfl
@[simp] theorem cancel_i : s.cancel.i = s.i := rfl
@[simp] theorem cancel_pc : s.cancel.pc = s.pc := rfl
@[simp] theorem cancel_stack : s.cancel.stack = s.stack := rfl
@[simp] theorem cancel_sp : s.cancel.sp = s.sp := rfl
@[simp] theorem cancel_dt : s.cancel.dt = s.dt := rfl
@[simp] theorem cancel_st : s.cancel.st = s.st := rfl
@[simp] theorem cancel_fb : s.cancel.fb = s.fb := rfl
@[simp] theorem cancel_params : s.cancel.params = s.params := rfl
@[simp] theorem cancel_inputs : s.cancel.inputs = s.inputs := rfl
@[simp] theorem cancel_draws : s.cancel.draws = s.draws := rfl
@[simp] theorem cancel_keyIn : s.cancel.keyIn = s.keyIn := rfl
@[simp] theorem cancel_randIn : s.cancel.randIn = s.randIn := rfl
@[simp] theorem cancel_present : s.cancel.present = s.present := rfl

/-! ### The changed fields -/

@[simp] theorem setReg_v (r : Reg) (b : Byte) : (s.setReg r b).v = s.v.set r b := rfl
@[simp] theorem poke_mem (a : Nat) (b : Byte) : (s.poke a b).mem = Memory.write s.params.font s.mem a b := rfl
@[simp] theorem skipIf_pc (c : Bool) : (s.skipIf c).pc = if c then s.pc + 2 else s.pc := rfl
@[simp] theorem takeFault_pc (e : HaltReason) (a0 : Word) (op : Option Word) : (takeFault e a0 op s).pc = a0 := rfl
@[simp] theorem takeFault_run (e : HaltReason) (a0 : Word) (op : Option Word) :
    (takeFault e a0 op s).run = .halted ⟨e, some a0, op⟩ := rfl
@[simp] theorem raise_pc (e : HaltReason) (op : Word) : (raise e op s).pc = s.pc - 2 := rfl
@[simp] theorem raise_run (e : HaltReason) (op : Word) :
    (raise e op s).run = .halted ⟨e, some (s.pc - 2), some op⟩ := rfl
@[simp] theorem cancel_run : s.cancel.run = .halted ⟨.cancelled, none, none⟩ := rfl

/-! ### The readers -/

theorem reg_setReg (r q : Reg) (b : Byte) : (s.setReg r b).reg q = if r = q then b else s.reg q := by
  simp only [State.reg, setReg_v, Fin.getElem_fin, Vector.getElem_set, Fin.ext_iff]

@[simp] theorem reg_setReg_self (r : Reg) (b : Byte) : (s.setReg r b).reg r = b := by simp [reg_setReg]

@[simp] theorem reg_setReg_ne {r q : Reg} (b : Byte) (h : q ≠ r) : (s.setReg r b).reg q = s.reg q := by
  simp [reg_setReg, h.symm]

/-- `reg` reads V alone. -/
theorem reg_congr {s t : State} (h : t.v = s.v) (r : Reg) : t.reg r = s.reg r := by simp [State.reg, h]

/-- `peek` reads memory and the font alone. -/
theorem peek_congr {s t : State} (hm : t.mem = s.mem) (hp : t.params = s.params) (a : Nat) : t.peek a = s.peek a := by
  simp [State.peek, hm, hp]

@[simp] theorem peek_setReg (r : Reg) (b : Byte) (a : Nat) : (s.setReg r b).peek a = s.peek a := rfl
@[simp] theorem reg_poke (a : Nat) (b : Byte) (r : Reg) : (s.poke a b).reg r = s.reg r := rfl

/-! ### useInput and takeSample -/

@[simp] theorem useInput_mem : s.useInput.mem = s.mem := by unfold State.useInput; split <;> rfl
@[simp] theorem useInput_v : s.useInput.v = s.v := by unfold State.useInput; split <;> rfl
@[simp] theorem useInput_i : s.useInput.i = s.i := by unfold State.useInput; split <;> rfl
@[simp] theorem useInput_pc : s.useInput.pc = s.pc := by unfold State.useInput; split <;> rfl
@[simp] theorem useInput_stack : s.useInput.stack = s.stack := by unfold State.useInput; split <;> rfl
@[simp] theorem useInput_sp : s.useInput.sp = s.sp := by unfold State.useInput; split <;> rfl
@[simp] theorem useInput_dt : s.useInput.dt = s.dt := by unfold State.useInput; split <;> rfl
@[simp] theorem useInput_st : s.useInput.st = s.st := by unfold State.useInput; split <;> rfl
@[simp] theorem useInput_fb : s.useInput.fb = s.fb := by unfold State.useInput; split <;> rfl
@[simp] theorem useInput_run : s.useInput.run = s.run := by unfold State.useInput; split <;> rfl
@[simp] theorem useInput_params : s.useInput.params = s.params := by unfold State.useInput; split <;> rfl
@[simp] theorem useInput_keyIn : s.useInput.keyIn = s.keyIn := by unfold State.useInput; split <;> rfl
@[simp] theorem useInput_randIn : s.useInput.randIn = s.randIn := by unfold State.useInput; split <;> rfl
@[simp] theorem useInput_present : s.useInput.present = false := by unfold State.useInput; split <;> rfl

/-- Everything that using an input up changes: what the host has in store, the counter of draws, and the strobe. -/
theorem useInput_only_store :
    s.useInput = { s with inputs := s.useInput.inputs, draws := s.useInput.draws, present := false } := by
  unfold State.useInput; split <;> rfl

section takeSample

variable (keys : Keys) (rand : Byte)

@[simp] theorem takeSample_mem : (s.takeSample keys rand).mem = s.mem := useInput_mem s
@[simp] theorem takeSample_v : (s.takeSample keys rand).v = s.v := useInput_v s
@[simp] theorem takeSample_i : (s.takeSample keys rand).i = s.i := useInput_i s
@[simp] theorem takeSample_pc : (s.takeSample keys rand).pc = s.pc := useInput_pc s
@[simp] theorem takeSample_stack : (s.takeSample keys rand).stack = s.stack := useInput_stack s
@[simp] theorem takeSample_sp : (s.takeSample keys rand).sp = s.sp := useInput_sp s
@[simp] theorem takeSample_dt : (s.takeSample keys rand).dt = s.dt := useInput_dt s
@[simp] theorem takeSample_st : (s.takeSample keys rand).st = s.st := useInput_st s
@[simp] theorem takeSample_fb : (s.takeSample keys rand).fb = s.fb := useInput_fb s
@[simp] theorem takeSample_run : (s.takeSample keys rand).run = s.run := useInput_run s
@[simp] theorem takeSample_params : (s.takeSample keys rand).params = s.params := useInput_params s
@[simp] theorem takeSample_inputs : (s.takeSample keys rand).inputs = s.useInput.inputs := rfl
@[simp] theorem takeSample_draws : (s.takeSample keys rand).draws = s.useInput.draws := rfl
@[simp] theorem takeSample_keyIn : (s.takeSample keys rand).keyIn = keys := rfl
@[simp] theorem takeSample_randIn : (s.takeSample keys rand).randIn = rand := rfl
@[simp] theorem takeSample_present : (s.takeSample keys rand).present = false := useInput_present s

/-- Everything a sample changes: the ports, and what the host has in store. -/
theorem takeSample_only_ports : s.takeSample keys rand = { s with
    inputs := s.useInput.inputs, draws := s.useInput.draws, keyIn := keys, randIn := rand, present := false } := by
  unfold State.takeSample; rw [useInput_only_store]

end takeSample

/-! ### tick -/

/-- Everything a tick changes: the two timers. -/
theorem tick_only_timers : s.tick = { s with dt := s.tick.dt, st := s.tick.st } := by
  unfold State.tick; split <;> rfl

/-! ### pokes, logicFlag, loadRegs: only the field they write -/

theorem pokes_only_mem (bs : List Byte) : ∀ (s : State) (a : Nat), s.pokes a bs = { s with mem := (s.pokes a bs).mem } := by
  induction bs with
  | nil => intro s a; rfl
  | cons b bs ih => intro s a; rw [State.pokes, ih]; rfl

theorem logicFlag_only_v : s.logicFlag = { s with v := s.logicFlag.v } := by
  unfold State.logicFlag; split <;> rfl

theorem loadRegs_only_v (n : Nat) : s.loadRegs n = { s with v := (s.loadRegs n).v } := by
  induction n with
  | zero => rfl
  | succ n ih => rw [State.loadRegs, ih]; rfl

end Sys2Proof.Machine
end

