-- ==== Sys2Proof/Laws/Memory.lean ====
section
/-! SUPPORT. Sys2Proof/Laws/Memory.lean: what a read sees after a write, and that every memory operation keeps the canonical
form. -/

namespace Sys2Proof.Machine

variable {font : Vector Byte 80}

theorem read_erase (m : List Host.Cell) (a c : Nat) :
    Memory.read font (Memory.erase m a) c = if c = a then Memory.unlisted font c else Memory.read font m c := by
  induction m with
  | nil => simp [Memory.erase, Memory.read]
  | cons e m ih =>
    obtain ⟨k, b⟩ := e
    by_cases hk : k = a
    · by_cases hc : c = a
      · simpa [Memory.erase, hk, hc] using ih
      · simpa [Memory.erase, Memory.read, hk, hc, Ne.symm hc] using ih
    · by_cases hkc : k = c
      · subst hkc; simp [Memory.erase, Memory.read, hk]
      · simpa [Memory.erase, Memory.read, hk, hkc] using ih

theorem read_insert (m : List Host.Cell) (a c : Nat) (b : Byte) :
    Memory.read font (Memory.insert m a b) c = if c = a then b else Memory.read font m c := by
  induction m with
  | nil => simp [Memory.insert, Memory.read, eq_comm]
  | cons e m ih =>
    obtain ⟨k, d⟩ := e
    unfold Memory.insert
    split
    · simp [Memory.read, eq_comm]
    · split
      · rename_i hk; subst hk
        by_cases hc : k = c
        · subst hc; simp [Memory.read]
        · simp [Memory.read, hc, Ne.symm hc]
      · rename_i hk
        by_cases hc : k = c
        · subst hc; simp [Memory.read, hk]
        · simpa [Memory.read, hc] using ih

/-- A read after a write gives the byte written there, and what it gave before elsewhere (20_memory.md R71). -/
theorem read_write (m : List Host.Cell) (a c : Nat) (b : Byte) :
    Memory.read font (Memory.write font m a b) c = if c = a then b else Memory.read font m c := by
  unfold Memory.write
  split
  · rename_i h; rw [read_erase]; split <;> simp_all
  · exact read_insert m a c b

theorem mem_erase {m : List Host.Cell} {a : Nat} {e : Host.Cell} (h : e ∈ Memory.erase m a) : e ∈ m := by
  induction m with
  | nil => simp [Memory.erase] at h
  | cons c m ih =>
    obtain ⟨k, d⟩ := c
    unfold Memory.erase at h
    split at h
    · exact List.mem_cons_of_mem _ (ih h)
    · rcases List.mem_cons.1 h with rfl | h
      · exact List.mem_cons_self
      · exact List.mem_cons_of_mem _ (ih h)

theorem mem_insert {m : List Host.Cell} {a : Nat} {b : Byte} {e : Host.Cell} (h : e ∈ Memory.insert m a b) :
    e = (a, b) ∨ e ∈ m := by
  induction m with
  | nil => simpa [Memory.insert] using h
  | cons c m ih =>
    obtain ⟨k, d⟩ := c
    unfold Memory.insert at h
    split at h
    · simpa using h
    · split at h
      · rcases List.mem_cons.1 h with rfl | h
        · exact .inl rfl
        · exact .inr (List.mem_cons_of_mem _ h)
      · rcases List.mem_cons.1 h with rfl | h
        · exact .inr List.mem_cons_self
        · exact (ih h).imp_right (List.mem_cons_of_mem _)

theorem erase_sorted {m : List Host.Cell} (a : Nat) (h : m.Pairwise fun c d => c.1 < d.1) :
    (Memory.erase m a).Pairwise fun c d => c.1 < d.1 := by
  induction m with
  | nil => simp [Memory.erase]
  | cons c m ih =>
    obtain ⟨k, d⟩ := c
    have h' := List.pairwise_cons.1 h
    unfold Memory.erase
    split
    · exact ih h'.2
    · exact List.pairwise_cons.2 ⟨fun e he => h'.1 e (mem_erase he), ih h'.2⟩

theorem insert_sorted {m : List Host.Cell} (a : Nat) (b : Byte) (h : m.Pairwise fun c d => c.1 < d.1) :
    (Memory.insert m a b).Pairwise fun c d => c.1 < d.1 := by
  induction m with
  | nil => simp [Memory.insert]
  | cons c m ih =>
    obtain ⟨k, d⟩ := c
    have h' := List.pairwise_cons.1 h
    unfold Memory.insert
    split
    · rename_i hk
      refine List.pairwise_cons.2 ⟨fun e he => ?_, h⟩
      rcases List.mem_cons.1 he with rfl | he
      · exact hk
      · exact Nat.lt_trans hk (h'.1 e he)
    · split
      · rename_i hk; subst hk; exact List.pairwise_cons.2 ⟨h'.1, h'.2⟩
      · refine List.pairwise_cons.2 ⟨fun e he => ?_, ih h'.2⟩
        rcases mem_insert he with rfl | he
        · simp only; omega
        · exact h'.1 e he

/-- A write inside the address space keeps the canonical form. -/
theorem wf_write {m : List Host.Cell} {a : Nat} (b : Byte) (ha : inMemory a = true) (h : Memory.wf font m) :
    Memory.wf font (Memory.write font m a b) := by
  unfold Memory.write
  split
  · exact ⟨erase_sorted a h.1, fun c hc => h.2 c (mem_erase hc)⟩
  · rename_i hb
    refine ⟨insert_sorted a b h.1, fun c hc => ?_⟩
    rcases mem_insert hc with rfl | hc
    · exact ⟨ha, hb⟩
    · exact h.2 c hc

theorem wf_nil : Memory.wf font [] := ⟨.nil, by simp⟩

/-! ### The same for states -/

theorem peek_poke (s : State) (a c : Nat) (b : Byte) : (s.poke a b).peek c = if c = a then b else s.peek c :=
  read_write s.mem a c b

/-- After storing bytes from `a` on, an address among them reads as its byte, and every other as before. -/
theorem peek_pokes (bs : List Byte) : ∀ (s : State) (a c : Nat),
    (s.pokes a bs).peek c = if h : a ≤ c ∧ c < a + bs.length then bs[c - a]'(by omega) else s.peek c := by
  induction bs with
  | nil =>
    intro s a c
    have : ¬ (a ≤ c ∧ c < a + 0) := by omega
    simp [State.pokes]
  | cons b bs ih =>
    intro s a c
    rw [State.pokes, ih, peek_poke]
    by_cases hc : c = a
    · subst hc; simp
    · by_cases h : a + 1 ≤ c ∧ c < a + 1 + bs.length
      · have h' : a ≤ c ∧ c < a + (b :: bs).length := by simp only [List.length_cons]; omega
        have e : c - a = (c - (a + 1)) + 1 := by omega
        simp only [h, h', dif_pos, e, List.getElem_cons_succ, and_self]
      · have h' : ¬ (a ≤ c ∧ c < a + (b :: bs).length) := by simp only [List.length_cons]; omega
        rw [dif_neg h, dif_neg h', if_neg hc]

theorem pokes_params (s : State) (a : Nat) (bs : List Byte) : (s.pokes a bs).params = s.params := by
  rw [pokes_only_mem]

/-- Storing bytes whose last address is inside the address space keeps the canonical form. -/
theorem wf_pokes (bs : List Byte) : ∀ (s : State) (a : Nat), inMemory (a + bs.length - 1) = true →
    Memory.wf s.params.font s.mem → Memory.wf (s.pokes a bs).params.font (s.pokes a bs).mem := by
  induction bs with
  | nil => intro s a _ h; exact h
  | cons b bs ih =>
    intro s a ha h
    rw [State.pokes]
    simp only [inMemory, List.length_cons, decide_eq_true_eq] at ha
    refine ih _ _ ?_ (wf_write b ?_ h) <;> simp only [inMemory, decide_eq_true_eq] <;> omega

end Sys2Proof.Machine
end

