-- ==== Sys2Proof/Laws/Ops.lean ====
section
/-! SUPPORT. Sys2Proof/Laws/Ops.lean: one lemma per shared operation, which says once what it can do. -/

namespace Sys2Proof.Machine

variable (s : State)

theorem inMemory_iff {a : Nat} : inMemory a = true ↔ a ≤ 0xFFF := by simp [inMemory]

/-! ### Registers and flags -/

/-- The flag is written last: VF holds the flag, whatever x is (42_alu.md R171). -/
theorem setRegFlag_reg (x r : Reg) (res flag : Byte) :
    (s.setRegFlag x res flag).reg r = if r = .vf then flag else if r = x then res else s.reg r := by
  simp only [State.setRegFlag, reg_setReg, eq_comm]

theorem setRegFlag_only_v (x : Reg) (res flag : Byte) :
    s.setRegFlag x res flag = { s with v := (s.setRegFlag x res flag).v } := rfl

theorem logicFlag_reg (r : Reg) :
    s.logicFlag.reg r = if s.params.logicResetsVf = true ∧ r = .vf then 0 else s.reg r := by
  unfold State.logicFlag
  by_cases h : s.params.logicResetsVf = true <;> simp [h, reg_setReg, eq_comm]

theorem flagByte_eq (b : Bool) : flagByte b = if b = true then 1 else 0 := rfl

/-! ### The call stack -/

/-- A push is refused exactly at depth 16; otherwise it stores PC in slot SP and deepens the stack. -/
theorem pushPc_cases : (s.sp = 16 ∧ s.pushPc = none) ∨
    ∃ h : s.sp.val < 16, s.pushPc =
      some { s with stack := s.stack.set s.sp.val s.pc, sp := ⟨s.sp.val + 1, by omega⟩ } := by
  unfold State.pushPc
  by_cases h : s.sp.val < 16
  · exact .inr ⟨h, by rw [dif_pos h]⟩
  · refine .inl ⟨Fin.ext ?_, by rw [dif_neg h]⟩
    have : s.sp.val = 16 := by omega
    simpa using this

/-- A pop is refused exactly at depth 0; otherwise it takes PC from slot SP − 1 and leaves the slots as they are. -/
theorem popPc_cases : (s.sp = 0 ∧ s.popPc = none) ∨
    ∃ h : 0 < s.sp.val, s.popPc =
      some { s with pc := s.stack[s.sp.val - 1]'(by omega), sp := ⟨s.sp.val - 1, by omega⟩ } := by
  unfold State.popPc
  by_cases h : 0 < s.sp.val
  · exact .inr ⟨h, by rw [dif_pos h]⟩
  · refine .inl ⟨Fin.ext ?_, by rw [dif_neg h]⟩
    have : s.sp.val = 0 := by omega
    simpa using this

/-! ### Fetch -/

/-- A fetch fails exactly when PC + 1 > 0xFFF; otherwise it gives the word at PC and advances PC by 2. -/
theorem fetch_cases : (0xFFF < s.pc.toNat + 1 ∧ fetch s = none) ∨
    (s.pc.toNat + 1 ≤ 0xFFF ∧ fetch s =
      some (wordOfBytes (s.peek s.pc.toNat) (s.peek (s.pc.toNat + 1)), { s with pc := s.pc + 2 })) := by
  unfold fetch
  by_cases h : s.pc.toNat + 1 ≤ 0xFFF
  · exact .inr ⟨h, by rw [if_pos (inMemory_iff.2 h)]⟩
  · exact .inl ⟨by omega, by rw [if_neg (mt inMemory_iff.1 h)]⟩

/-! ### Keys and timers -/

/-- The lowest pressed key is pressed, and no lower one is. -/
theorem lowestKey_some {keys : Keys} {k : Reg} (h : lowestKey keys = some k) :
    keys[k] = true ∧ ∀ j : Reg, j < k → keys[j] = false := by
  unfold lowestKey at h
  rw [List.find?_eq_some_iff_getElem] at h
  obtain ⟨hk, n, hn, rfl, hlt⟩ := h
  refine ⟨hk, fun j hj => ?_⟩
  have hjn : j.val < n := by simpa [Fin.lt_def] using hj
  simpa using hlt j.val hjn

/-- There is no lowest pressed key exactly when no key is pressed. -/
theorem lowestKey_none {keys : Keys} : lowestKey keys = none ↔ ∀ k : Reg, keys[k] = false := by
  simp [lowestKey]

/-- A timer goes down by one and stops at zero. -/
theorem countDown_toNat (t : Byte) : (countDown t).toNat = t.toNat - 1 := by
  unfold countDown
  split
  · simp_all
  · rename_i h
    have : t.toNat ≠ 0 := fun e => h (BitVec.eq_of_toNat_eq (by simpa using e))
    rw [BitVec.toNat_sub]
    have := t.isLt
    simp
    omega

/-! ### Register load -/

/-- After loading n registers, each of V0..V(n−1) holds its byte of memory, and the others what they held. -/
theorem loadRegs_reg (n : Nat) (hn : n ≤ 16) (r : Reg) :
    (s.loadRegs n).reg r = if r.val < n then s.peek (s.effAddr r.val) else s.reg r := by
  induction n with
  | zero => simp [State.loadRegs]
  | succ n ih =>
    rw [State.loadRegs, reg_setReg, ih (by omega)]
    by_cases h : r.val = n
    · have e : (Fin.ofNat 16 n : Reg) = r := Fin.ext (by simp [Fin.ofNat, h]; omega)
      rw [if_pos e, if_pos (by omega), h]
    · have e : (Fin.ofNat 16 n : Reg) ≠ r := fun e => h (by rw [← e]; simp [Fin.ofNat]; omega)
      have h2 : r.val < n + 1 ↔ r.val < n := by omega
      rw [if_neg e]
      simp only [h2]

end Sys2Proof.Machine
end

