-- ==== Sys2Proof/Laws/PerInstr.lean ====
section
/-! SUPPORT. Sys2Proof/Laws/PerInstr.lean: the family MatchesRow: the word of every instruction matches its own row of the
opcode table (30_encoding.md R95, "a word w matches a row when `(w & mask) == match`"). -/

namespace Sys2Proof.Laws.MatchesRow

/-- The encoder and the table agree on the fixed bits of the instruction. -/
def Statement (i : Instr) : Prop := i.row.matches (encode i) = true

/-! ### The five shapes of a row -/

variable {a : Nat} {c : Word}

theorem annn (ha : a < 16) (hc : a * 4096 = c.toNat) (nnn : Addr) :
    OpRow.matches ⟨c, 0xF000⟩ (wordNnn a nnn) = true := by
  have := nnn.isLt
  exact matches_F000 (by rw [wordNnn_toNat ha, ← hc]; clear hc; omega)

theorem axkk (ha : a < 16) (hc : a * 4096 = c.toNat) (x : Reg) (kk : Byte) :
    OpRow.matches ⟨c, 0xF000⟩ (wordXkk a x kk) = true := by
  have := kk.isLt
  exact matches_F000 (by rw [wordXkk_toNat ha, ← hc]; clear hc; omega)

theorem axyd (ha : a < 16) {d : Nibble} (hc : a * 4096 + d.toNat = c.toNat) (x y : Reg) :
    OpRow.matches ⟨c, 0xF00F⟩ (wordXyn a x y d) = true := by
  have := d.isLt
  exact matches_F00F (by rw [wordXyn_toNat ha, ← hc]; clear hc; omega)

theorem axyn (ha : a < 16) (hc : a * 4096 = c.toNat) (x y : Reg) (n : Nibble) :
    OpRow.matches ⟨c, 0xF000⟩ (wordXyn a x y n) = true := by
  have := n.isLt
  exact matches_F000 (by rw [wordXyn_toNat ha, ← hc]; clear hc; omega)

theorem axcd (ha : a < 16) {cd : Byte} (hc : a * 4096 + cd.toNat = c.toNat) (x : Reg) :
    OpRow.matches ⟨c, 0xF0FF⟩ (wordXkk a x cd) = true := by
  have := cd.isLt
  exact matches_F0FF (by rw [wordXkk_toNat ha, ← hc]; clear hc; omega)

/-! ### One lemma per instruction -/

theorem sys (nnn : Addr) : Statement (.sys nnn) := annn (by decide) (by decide) nnn
theorem cls : Statement .cls := matches_exact _
theorem ret : Statement .ret := matches_exact _
theorem quit (op : Word) : Statement (.quit op) := matches_exact _
theorem jp (nnn : Addr) : Statement (.jp nnn) := annn (by decide) (by decide) nnn
theorem call (nnn : Addr) : Statement (.call nnn) := annn (by decide) (by decide) nnn
theorem seVxKk (x : Reg) (kk : Byte) : Statement (.seVxKk x kk) := axkk (by decide) (by decide) x kk
theorem sneVxKk (x : Reg) (kk : Byte) : Statement (.sneVxKk x kk) := axkk (by decide) (by decide) x kk
theorem seVxVy (x y : Reg) : Statement (.seVxVy x y) := axyd (by decide) (by decide) x y
theorem ldVxKk (x : Reg) (kk : Byte) : Statement (.ldVxKk x kk) := axkk (by decide) (by decide) x kk
theorem addVxKk (x : Reg) (kk : Byte) : Statement (.addVxKk x kk) := axkk (by decide) (by decide) x kk
theorem ldVxVy (x y : Reg) : Statement (.ldVxVy x y) := axyd (by decide) (by decide) x y
theorem orVxVy (x y : Reg) : Statement (.orVxVy x y) := axyd (by decide) (by decide) x y
theorem andVxVy (x y : Reg) : Statement (.andVxVy x y) := axyd (by decide) (by decide) x y
theorem xorVxVy (x y : Reg) : Statement (.xorVxVy x y) := axyd (by decide) (by decide) x y
theorem addVxVy (x y : Reg) : Statement (.addVxVy x y) := axyd (by decide) (by decide) x y
theorem subVxVy (x y : Reg) : Statement (.subVxVy x y) := axyd (by decide) (by decide) x y
theorem shrVx (x y : Reg) : Statement (.shrVx x y) := axyd (by decide) (by decide) x y
theorem subnVxVy (x y : Reg) : Statement (.subnVxVy x y) := axyd (by decide) (by decide) x y
theorem shlVx (x y : Reg) : Statement (.shlVx x y) := axyd (by decide) (by decide) x y
theorem sneVxVy (x y : Reg) : Statement (.sneVxVy x y) := axyd (by decide) (by decide) x y
theorem ldI (nnn : Addr) : Statement (.ldI nnn) := annn (by decide) (by decide) nnn
theorem jpV0 (nnn : Addr) : Statement (.jpV0 nnn) := annn (by decide) (by decide) nnn
theorem rndVxKk (x : Reg) (kk : Byte) : Statement (.rndVxKk x kk) := axkk (by decide) (by decide) x kk
theorem drw (x y : Reg) (n : Nibble) : Statement (.drw x y n) := axyn (by decide) (by decide) x y n
theorem skpVx (x : Reg) : Statement (.skpVx x) := axcd (by decide) (by decide) x
theorem sknpVx (x : Reg) : Statement (.sknpVx x) := axcd (by decide) (by decide) x
theorem ldVxDt (x : Reg) : Statement (.ldVxDt x) := axcd (by decide) (by decide) x
theorem ldVxK (x : Reg) : Statement (.ldVxK x) := axcd (by decide) (by decide) x
theorem ldDtVx (x : Reg) : Statement (.ldDtVx x) := axcd (by decide) (by decide) x
theorem ldStVx (x : Reg) : Statement (.ldStVx x) := axcd (by decide) (by decide) x
theorem addIVx (x : Reg) : Statement (.addIVx x) := axcd (by decide) (by decide) x
theorem ldFVx (x : Reg) : Statement (.ldFVx x) := axcd (by decide) (by decide) x
theorem ldBVx (x : Reg) : Statement (.ldBVx x) := axcd (by decide) (by decide) x
theorem ldMemVx (x : Reg) : Statement (.ldMemVx x) := axcd (by decide) (by decide) x
theorem ldVxMem (x : Reg) : Statement (.ldVxMem x) := axcd (by decide) (by decide) x

end Sys2Proof.Laws.MatchesRow
end

