-- ==== Sys2Proof/Laws/Step.lean ====
section
/-! SUPPORT. Sys2Proof/Laws/Step.lean: said once: everything an instruction can do (`exec_eq`, `exec_cases`) and everything
a step can do (`step_cases`). -/

namespace Sys2Proof.Machine

/-! ### Instructions -/

/-- The state an instruction leaves when its own check passes. (The stack index is reduced only to be total.) -/
def effect (s : State) : Instr → State
  | .sys _ => s
  | .cls => { s with fb := .clear }
  | .ret =>
    { s with pc := s.stack[(s.sp.val - 1) % 16]'(Nat.mod_lt _ (by omega)), sp := ⟨s.sp.val - 1, by omega⟩ }
  | .quit _ => s
  | .jp nnn => { s with pc := zext nnn }
  | .call nnn =>
    { s with pc := zext nnn, stack := s.stack.set (s.sp.val % 16) s.pc (Nat.mod_lt _ (by omega)),
             sp := ⟨(s.sp.val + 1) % 17, Nat.mod_lt _ (by omega)⟩ }
  | .seVxKk x kk => s.skipIf (s.reg x == kk)
  | .sneVxKk x kk => s.skipIf (s.reg x != kk)
  | .seVxVy x y => s.skipIf (s.reg x == s.reg y)
  | .sneVxVy x y => s.skipIf (s.reg x != s.reg y)
  | .ldVxKk x kk => s.setReg x kk
  | .addVxKk x kk => s.setReg x (s.reg x + kk)
  | .ldVxVy x y => s.setReg x (s.reg y)
  | .orVxVy x y => (s.setReg x (s.reg x ||| s.reg y)).logicFlag
  | .andVxVy x y => (s.setReg x (s.reg x &&& s.reg y)).logicFlag
  | .xorVxVy x y => (s.setReg x (s.reg x ^^^ s.reg y)).logicFlag
  | .addVxVy x y => s.setRegFlag x (s.reg x + s.reg y) (carryFlag (s.reg x) (s.reg y))
  | .subVxVy x y => s.setRegFlag x (s.reg x - s.reg y) (notBorrowFlag s.params.subEqualFlag (s.reg x) (s.reg y))
  | .shrVx x y => s.setRegFlag x (s.reg x >>> 1) (shrFlag (s.reg x))
  | .subnVxVy x y => s.setRegFlag x (s.reg y - s.reg x) (notBorrowFlag s.params.subEqualFlag (s.reg y) (s.reg x))
  | .shlVx x y => s.setRegFlag x (s.reg x <<< 1) (shlFlag (s.reg x))
  | .ldI nnn => { s with i := zext nnn }
  | .jpV0 nnn => { s with pc := jpV0Target nnn s }
  | .rndVxKk x kk => s.setReg x (s.randIn &&& kk)
  | .drw x y n =>
    { s.setReg .vf (collisionFlag (drawRows s (s.reg x) (s.reg y) n.toNat (s.fb, false)).2) with
      fb := (drawRows s (s.reg x) (s.reg y) n.toNat (s.fb, false)).1, present := true }
  | .skpVx x => s.skipIf (s.keyIn[(s.reg x).toNat % 16]'(Nat.mod_lt _ (by omega)))
  | .sknpVx x => s.skipIf (!(s.keyIn[(s.reg x).toNat % 16]'(Nat.mod_lt _ (by omega))))
  | .ldVxDt x => s.setReg x s.dt
  | .ldVxK x => s.keyWait x
  | .ldDtVx x => { s with dt := s.reg x }
  | .ldStVx x => { s with st := s.reg x }
  | .addIVx x => { s with i := s.i + (s.reg x).setWidth 16 }
  | .ldFVx x => { s with i := glyphAddr s.params.fontIndex (s.reg x) }
  | .ldBVx x => s.pokes (s.effAddr 0) (bcdDigits (s.reg x))
  | .ldMemVx x => (s.pokes (s.effAddr 0) (s.regsUpTo x)).advanceI x
  | .ldVxMem x => (s.loadRegs (x.val + 1)).advanceI x

/-- What `exec` can answer: the fault of the instruction's own check, or its effect. -/
theorem exec_eq (i : Instr) (s : State) :
    exec i s = .next (match ownFault s i with | some e => raise e (encode i) s | none => effect s i) := by
  cases i with
  | ret =>
    simp only [exec, execRet, ownFault, effect]
    rcases popPc_cases s with ⟨h, e⟩ | ⟨h, e⟩
    · rw [e]; simp [h]
    · rw [e]; have h0 : s.sp ≠ 0 := by intro h'; simp [h'] at h
      simp only [if_neg h0, Host.Outcome.next.injEq]
      have h3 : (s.sp.val - 1) % 16 = s.sp.val - 1 := by have := s.sp.isLt; omega
      simp only [h3]
  | call nnn =>
    simp only [exec, execCall, ownFault, effect]
    rcases pushPc_cases s with ⟨h, e⟩ | ⟨h, e⟩
    · rw [e]; simp [h]
    · rw [e]; have h0 : s.sp ≠ 16 := by intro h'; rw [h'] at h; revert h; decide
      simp only [if_neg h0, Host.Outcome.next.injEq]
      have h3 : (s.sp.val) % 16 = s.sp.val := by omega
      have h4 : (s.sp.val + 1) % 17 = s.sp.val + 1 := by omega
      simp only [h3, h4]
  | skpVx x =>
    simp only [exec, execSkpVx, ownFault, effect, keyIndex]
    by_cases h : (s.reg x).toNat < 16
    · have h2 : ¬ 15 < (s.reg x).toNat := by omega
      simp [h, h2, Nat.mod_eq_of_lt h]
    · have h2 : 15 < (s.reg x).toNat := by omega
      simp [h, h2]
  | sknpVx x =>
    simp only [exec, execSknpVx, ownFault, effect, keyIndex]
    by_cases h : (s.reg x).toNat < 16
    · have h2 : ¬ 15 < (s.reg x).toNat := by omega
      simp [h, h2, Nat.mod_eq_of_lt h]
    · have h2 : 15 < (s.reg x).toNat := by omega
      simp [h, h2]
  | drw x y n =>
    simp only [exec, execDrw, ownFault, effect]
    have hz : n = 0 ↔ n.toNat = 0 := by
      constructor
      · rintro rfl; rfl
      · intro h; exact BitVec.eq_of_toNat_eq h
    by_cases h : 0 < n.toNat ∧ 0xFFF < s.i.toNat + n.toNat - 1
    · have h2 : ¬ ((n = 0 || inMemory (s.effAddr (n.toNat - 1))) = true) := by
        rw [Bool.or_eq_true, inMemory_iff, decide_eq_true_eq, hz]; unfold State.effAddr; omega
      rw [if_neg h2]; simp [h]
    · have h2 : ((n = 0 || inMemory (s.effAddr (n.toNat - 1))) = true) := by
        rw [Bool.or_eq_true, inMemory_iff, decide_eq_true_eq, hz]; unfold State.effAddr; omega
      rw [if_pos h2]; simp only [if_neg h]
  | ldBVx x =>
    simp only [exec, execLdBVx, ownFault, effect]
    by_cases h : 0xFFF < s.i.toNat + 2
    · simp only [h, if_true]; rw [if_neg]; simp [inMemory, State.effAddr]; omega
    · simp only [h, if_false]; rw [if_pos]; simp [inMemory, State.effAddr]; omega
  | ldMemVx x =>
    simp only [exec, execLdMemVx, ownFault, effect]
    by_cases h : 0xFFF < s.i.toNat + x.val
    · have h2 : ¬ inMemory (s.effAddr x.val) = true := by rw [inMemory_iff]; unfold State.effAddr; omega
      rw [if_neg h2, if_pos h]
    · have h2 : inMemory (s.effAddr x.val) = true := by rw [inMemory_iff]; unfold State.effAddr; omega
      rw [if_pos h2, if_neg h]
  | ldVxMem x =>
    simp only [exec, execLdVxMem, ownFault, effect]
    by_cases h : 0xFFF < s.i.toNat + x.val
    · have h2 : ¬ inMemory (s.effAddr x.val) = true := by rw [inMemory_iff]; unfold State.effAddr; omega
      rw [if_neg h2, if_pos h]
    · have h2 : inMemory (s.effAddr x.val) = true := by rw [inMemory_iff]; unfold State.effAddr; omega
      rw [if_pos h2, if_neg h]
  | _ => rfl

theorem exec_cases {i : Instr} {s t : State} (h : exec i s = .next t) :
    (∃ e, ownFault s i = some e ∧ t = raise e (encode i) s) ∨ (ownFault s i = none ∧ t = effect s i) := by
  rw [exec_eq] at h
  cases ho : ownFault s i with
  | none => rw [ho] at h; cases h; exact .inr ⟨rfl, rfl⟩
  | some e => rw [ho] at h; cases h; exact .inl ⟨e, rfl, rfl⟩

/-! ### What KeyWait and KeyPoll write -/

theorem keyPoll_only (s : State) (r : Reg) :
    s.keyPoll r = { s with v := (s.keyPoll r).v, run := (s.keyPoll r).run } := by
  unfold State.keyPoll; split <;> rfl

theorem keyWait_only (s : State) (x : Reg) :
    s.keyWait x = { s with v := (s.keyWait x).v, run := (s.keyWait x).run } := by
  unfold State.keyWait; split <;> rfl

/-- An effect leaves Run as it is, or BLOCKED. -/
theorem effect_run (s : State) (i : Instr) : (effect s i).run = s.run ∨ ∃ r, (effect s i).run = .blocked r := by
  cases i <;> first | exact .inl rfl | skip
  case orVxVy x y => left; simp only [effect]; rw [logicFlag_only_v]; rfl
  case andVxVy x y => left; simp only [effect]; rw [logicFlag_only_v]; rfl
  case xorVxVy x y => left; simp only [effect]; rw [logicFlag_only_v]; rfl
  case ldVxK x =>
    simp only [effect, State.keyWait]; split
    · exact .inl rfl
    · exact .inr ⟨x, rfl⟩
  case ldMemVx x => left; simp only [effect, advanceI_run]; rw [pokes_only_mem]
  case ldVxMem x => left; simp only [effect, advanceI_run]; rw [loadRegs_only_v]

/-! ### Whose turn it is -/

/-- A scheduled entry comes next. -/
theorem nextInput_cons {s : State} {e : Input} {rest : List Input} (h : s.inputs = e :: rest) : s.nextInput = e := by
  unfold State.nextInput; rw [h]

theorem useInput_cons {s : State} {e : Input} {rest : List Input} (h : s.inputs = e :: rest) :
    s.useInput = { s with inputs := rest, present := false } := by
  unfold State.useInput; rw [h]

/-- With nothing scheduled the next step is a free draw. -/
theorem nextInput_nil {s : State} (h : s.inputs = []) : s.nextInput = .drawn s.draws := by
  unfold State.nextInput; rw [h]

theorem useInput_nil {s : State} (h : s.inputs = []) : s.useInput = { s with draws := s.draws + 1, present := false } := by
  unfold State.useInput; rw [h]

theorem engineNext_iff (s : State) : s.engineNext = true ↔ ∃ keys rand, s.nextInput = .engine keys rand := by
  unfold State.engineNext; cases s.nextInput <;> simp

@[simp] theorem peek_takeSample (s : State) (keys : Keys) (rand : Byte) (a : Nat) :
    (s.takeSample keys rand).peek a = s.peek a := peek_congr (by simp) (by simp) a

/-- A step in which some agent may move, by whose turn it is. -/
theorem step_enabled (s : State) (hr : ∀ h, s.run ≠ .halted h) :
    step s = match s.nextInput with
      | .tick => .next s.useInput.tick
      | .cancel => .next s.useInput.cancel
      | .engine keys rand => engineStep (s.takeSample keys rand) := by
  unfold step
  cases h : s.run with
  | halted h' => exact absurd h (hr h')
  | running => cases s.nextInput <;> rfl
  | blocked r => cases s.nextInput <;> rfl

/-- The engine's turn. -/
theorem step_engine {s : State} {keys : Keys} {rand : Byte} (he : s.nextInput = .engine keys rand)
    (hr : ∀ h, s.run ≠ .halted h) : step s = engineStep (s.takeSample keys rand) := by
  rw [step_enabled s hr, he]

/-- The timer's turn. -/
theorem step_tick {s : State} (hi : s.nextInput = .tick) (hr : ∀ h, s.run ≠ .halted h) :
    step s = .next s.useInput.tick := by
  rw [step_enabled s hr, hi]

/-- The host's turn. -/
theorem step_cancel {s : State} (hi : s.nextInput = .cancel) (hr : ∀ h, s.run ≠ .halted h) :
    step s = .next s.useInput.cancel := by
  rw [step_enabled s hr, hi]

/-! ### The engine -/

/-- The engine step whose fetch is beyond memory. -/
theorem engineStep_beyond (s : State) (hr : s.run = .running) (hp : 0xFFF < s.pc.toNat + 1) :
    engineStep s = .next (takeFault (.outOfBoundsAccess .fetch) s.pc none s) := by
  rcases fetch_cases s with ⟨-, e⟩ | ⟨h, -⟩
  · unfold engineStep; rw [hr]; simp only [e]
  · omega

/-- The engine step whose fetch is inside memory, by the word at PC. -/
theorem engineStep_running (s : State) (hr : s.run = .running) (hp : s.pc.toNat + 1 ≤ 0xFFF) :
    engineStep s =
      match decodeWord s.params.quitOpcodes (wordOfBytes (s.peek s.pc.toNat) (s.peek (s.pc.toNat + 1))) with
      | .ok i => exec i { s with pc := s.pc + 2 }
      | .error _ => .next (raise .unimplementedOpcode (wordOfBytes (s.peek s.pc.toNat) (s.peek (s.pc.toNat + 1)))
          { s with pc := s.pc + 2 }) := by
  unfold engineStep
  split
  · simp_all
  · simp_all
  rcases fetch_cases s with ⟨h, -⟩ | ⟨h, e⟩
  · omega
  · cases hd : decodeWord s.params.quitOpcodes (wordOfBytes (s.peek s.pc.toNat) (s.peek (s.pc.toNat + 1))) <;>
      simp only [e, hd]

/-- What a step can do: a tick, a cancel, a poll, a fetch fault, a decode fault, or an instruction. -/
theorem step_cases {s t : State} (h : step s = .next t) : (∀ h, s.run ≠ .halted h) ∧
    ((s.nextInput = .tick ∧ t = s.useInput.tick) ∨
     (s.nextInput = .cancel ∧ t = s.useInput.cancel) ∨
     ∃ keys rand, s.nextInput = .engine keys rand ∧
      ((∃ r, s.run = .blocked r ∧ t = (s.takeSample keys rand).keyPoll r) ∨
       (s.run = .running ∧ 0xFFF < s.pc.toNat + 1 ∧
         t = takeFault (.outOfBoundsAccess .fetch) s.pc none (s.takeSample keys rand)) ∨
       (s.run = .running ∧ s.pc.toNat + 1 ≤ 0xFFF ∧
         ∃ op, t = raise .unimplementedOpcode op { s.takeSample keys rand with pc := s.pc + 2 }) ∨
       ∃ i, s.About i ∧ exec i { s.takeSample keys rand with pc := s.pc + 2 } = .next t)) := by
  have hr : ∀ h, s.run ≠ .halted h := by
    intro h' hh; unfold step at h; rw [hh] at h; cases h
  refine ⟨hr, ?_⟩
  rw [step_enabled s hr] at h
  cases hn : s.nextInput with
  | tick => rw [hn] at h; cases h; exact .inl ⟨rfl, rfl⟩
  | cancel => rw [hn] at h; cases h; exact .inr (.inl ⟨rfl, rfl⟩)
  | engine keys rand =>
    replace h : engineStep (s.takeSample keys rand) = .next t := by rw [hn] at h; exact h
    refine .inr (.inr ⟨keys, rand, rfl, ?_⟩)
    cases hs : s.run with
    | halted h' => exact absurd hs (hr h')
    | blocked r =>
      simp only [engineStep, takeSample_run, hs] at h
      cases h; exact .inl ⟨r, rfl, rfl⟩
    | running =>
      by_cases hp : s.pc.toNat + 1 ≤ 0xFFF
      · rw [engineStep_running _ (by simpa using hs) (by simpa using hp)] at h
        split at h
        · rename_i i hd
          rw [takeSample_pc] at h
          simp only [peek_takeSample, takeSample_pc, takeSample_params] at hd
          exact .inr (.inr (.inr ⟨i, ⟨hs, (engineNext_iff s).2 ⟨_, _, hn⟩, hp, hd⟩, h⟩))
        · rw [takeSample_pc] at h
          cases h; exact .inr (.inr (.inl ⟨rfl, hp, _, rfl⟩))
      · rw [engineStep_beyond _ (by simpa using hs) (by rw [takeSample_pc]; omega)] at h
        cases h; exact .inr (.inl ⟨rfl, by omega, by simp⟩)

end Sys2Proof.Machine
end

