-- ==== Sys2Proof/Tests/Slice0.lean ====
section
/-! SUPPORT. Sys2Proof/Tests/Slice0.lean: tests with expected results from the spec (95_test_vectors.md, its row named in
the docstring), words written out from the encodings of 30_encoding.md, and a witness for the hypotheses of every
obligation. -/

namespace Sys2Proof.Tests

open Sys2Proof.Machine

/-! ### Helpers -/

/-- The default `P_QUIT_OPCODES`. -/
abbrev q : List Word := [0x00FD]

/-- Four nibbles as a word, so that a test can spell a, x, y, n (R90). -/
def nib (a x y n : Nibble) : Word := a ++ x ++ y ++ n

/-- The reset state with some registers set. -/
def vs (l : List (Reg × Byte)) : State := l.foldl (fun s p => s.setReg p.1 p.2) .reset

/-- The state after one step that executes the word `w`. -/
def after (w : Nat) (s : State) : State :=
  match step (s.withFetchWord 16 w) with
  | .next t => t
  | .fault _ | .refused _ => s

/-- A key sample with the listed keys pressed. -/
def keys (l : List Reg) : Keys := l.foldl (fun (k : Keys) (r : Reg) => k.set r true) (.replicate 16 false)

/-- A parameter set that differs from the default in every flag. -/
def flipped : Params :=
  { Params.default with bnnnAddsV0 := true, subEqualFlag := false, logicResetsVf := true, fontIndex := .fullByte,
                        ldstIncrementsI := true, ticksWhileBlocked := true, quitOpcodes := [] }

/-- The halt record of a fault of the instruction `w` at 0x200. -/
def at200 (e : HaltReason) (w : Word) : Run := .halted ⟨e, some 0x200, some w⟩

/-! ### WellFormed: each check refuses an ill-formed term -/

theorem test_wf_sys_of_cls : (Instr.sys 0x0E0).wf q = false := by decide
theorem test_wf_sys_of_ret : (Instr.sys 0x0EE).wf q = false := by decide
theorem test_wf_sys_of_quit_member : (Instr.sys 0x0FD).wf q = false := by decide
theorem test_wf_sys_plain : (Instr.sys 0x0FD).wf [] = true ∧ (Instr.sys 0x123).wf q = true := by decide
theorem test_wf_quit_nonmember : (Instr.quit 0x0123).wf q = false := by decide
theorem test_wf_quit_of_exact_word : (Instr.quit 0x00E0).wf [0x00E0] = false ∧ (Instr.quit 0x00EE).wf [0x00EE] = false := by
  decide
theorem test_wf_quit_member : (Instr.quit 0x00FD).wf q = true := by decide

/-! ### Decoding: one word per row, written nibble by nibble from 30_encoding.md R95 -/

theorem test_decode_system :
    decodeWord q (nib 0x0 0x1 0x2 0x3) = .ok (.sys 0x123) ∧ decodeWord q (nib 0x0 0x0 0xE 0x0) = .ok .cls ∧
    decodeWord q (nib 0x0 0x0 0xE 0xE) = .ok .ret ∧ decodeWord q (nib 0x0 0x0 0xF 0xD) = .ok (.quit 0x00FD) := by decide

theorem test_decode_quit_by_parameter :
    decodeWord [] 0x00FD = .ok (.sys 0x0FD) ∧ decodeWord [0x00E0, 0x1234] 0x00E0 = .ok .cls ∧
    decodeWord [0x00E0, 0x1234] 0x1234 = .ok (.quit 0x1234) := by decide

theorem test_decode_jumps :
    decodeWord q (nib 0x1 0x2 0x3 0x4) = .ok (.jp 0x234) ∧ decodeWord q (nib 0x2 0xF 0x0 0x1) = .ok (.call 0xF01) ∧
    decodeWord q (nib 0xB 0x8 0x7 0x6) = .ok (.jpV0 0x876) ∧ decodeWord q (nib 0xA 0xB 0xC 0xD) = .ok (.ldI 0xBCD) := by
  decide

theorem test_decode_skips :
    decodeWord q (nib 0x3 0x5 0x1 0x0) = .ok (.seVxKk 5 0x10) ∧ decodeWord q (nib 0x4 0x6 0xF 0xE) = .ok (.sneVxKk 6 0xFE) ∧
    decodeWord q (nib 0x5 0x1 0x2 0x0) = .ok (.seVxVy 1 2) ∧ decodeWord q (nib 0x9 0xA 0x3 0x0) = .ok (.sneVxVy 0xA 3) := by
  decide

theorem test_decode_loads :
    decodeWord q (nib 0x6 0xA 0x2 0xB) = .ok (.ldVxKk 0xA 0x2B) ∧ decodeWord q (nib 0x7 0xB 0x8 0x1) = .ok (.addVxKk 0xB 0x81) ∧
    decodeWord q (nib 0xC 0x3 0x0 0xF) = .ok (.rndVxKk 3 0x0F) := by decide

theorem test_decode_alu_low :
    decodeWord q (nib 0x8 0x1 0x2 0x0) = .ok (.ldVxVy 1 2) ∧ decodeWord q (nib 0x8 0x1 0x2 0x1) = .ok (.orVxVy 1 2) ∧
    decodeWord q (nib 0x8 0x1 0x2 0x2) = .ok (.andVxVy 1 2) ∧ decodeWord q (nib 0x8 0x1 0x2 0x3) = .ok (.xorVxVy 1 2) ∧
    decodeWord q (nib 0x8 0x1 0x2 0x4) = .ok (.addVxVy 1 2) := by decide

theorem test_decode_alu_high :
    decodeWord q (nib 0x8 0x1 0x2 0x5) = .ok (.subVxVy 1 2) ∧ decodeWord q (nib 0x8 0x1 0x2 0x6) = .ok (.shrVx 1 2) ∧
    decodeWord q (nib 0x8 0x1 0x2 0x7) = .ok (.subnVxVy 1 2) ∧ decodeWord q (nib 0x8 0x1 0x2 0xE) = .ok (.shlVx 1 2) := by
  decide

theorem test_decode_draw_and_keys :
    decodeWord q (nib 0xD 0xA 0xB 0x5) = .ok (.drw 0xA 0xB 5) ∧ decodeWord q (nib 0xE 0x1 0x9 0xE) = .ok (.skpVx 1) ∧
    decodeWord q (nib 0xE 0x1 0xA 0x1) = .ok (.sknpVx 1) ∧ decodeWord q (nib 0xF 0x2 0x0 0xA) = .ok (.ldVxK 2) := by decide

theorem test_decode_timers :
    decodeWord q (nib 0xF 0x2 0x0 0x7) = .ok (.ldVxDt 2) ∧ decodeWord q (nib 0xF 0x2 0x1 0x5) = .ok (.ldDtVx 2) ∧
    decodeWord q (nib 0xF 0x2 0x1 0x8) = .ok (.ldStVx 2) := by decide

theorem test_decode_index :
    decodeWord q (nib 0xF 0x2 0x1 0xE) = .ok (.addIVx 2) ∧ decodeWord q (nib 0xF 0x2 0x2 0x9) = .ok (.ldFVx 2) ∧
    decodeWord q (nib 0xF 0x2 0x3 0x3) = .ok (.ldBVx 2) ∧ decodeWord q (nib 0xF 0x2 0x5 0x5) = .ok (.ldMemVx 2) ∧
    decodeWord q (nib 0xF 0x2 0x6 0x5) = .ok (.ldVxMem 2) := by decide

/-- T18 to T22. -/
theorem test_decode_unimplemented :
    [0x5121, 0x9121, 0x8008, 0x800F, 0xE09F, 0xE000, 0xF000, 0xF030, 0xF075, 0xFFFF].map (fun w => decodeWord q w) =
    [0x5121, 0x9121, 0x8008, 0x800F, 0xE09F, 0xE000, 0xF000, 0xF030, 0xF075, 0xFFFF].map
      (fun w => .error (.unimplementedOpcode w)) := by decide

/-- R98: two bytes, high byte first; fewer are no instruction. -/
theorem test_decode_bytes :
    decode q [0x12, 0x34, 0x56] = .ok (.jp 0x234, [0x56]) ∧ decode q [0x12] = .error .truncated := by decide

theorem test_encode_bytes : encodeBytes (.drw 0xA 0xB 5) = [0xDA, 0xB5] := by decide

theorem test_decode_table_word : decodeTableWord 16 0x00FD = some (.quit 0x00FD) ∧ decodeTableWord 16 0x8008 = none := by
  decide

/-! ### The step, the host's way in, and reset -/

/-- S1: bytes 12 34 at 0x200. -/
theorem test_fetch_big_endian :
    (State.reset.withFetchWord 16 0x1234).peek 0x200 = 0x12 ∧ (State.reset.withFetchWord 16 0x1234).peek 0x201 = 0x34 ∧
    (after 0x1234 .reset).pc = 0x234 := by decide

/-- T12. -/
theorem test_fetch_odd : (after 0x6107 { State.reset with pc := 0x201 }).pc = 0x203 := by decide

/-- T11. -/
theorem test_fetch_fault :
    (after 0 { State.reset with pc := 0xFFF }).run = .halted ⟨.outOfBoundsAccess .fetch, some 0xFFF, none⟩ := by decide

/-- T18. -/
theorem test_unimplemented_halts :
    (after 0x5121 .reset).run = at200 .unimplementedOpcode 0x5121 ∧ (after 0x5121 .reset).pc = 0x200 := by decide

/-- T4, T5: the font, and zeros after it. -/
theorem test_reset_font :
    (List.range 5).map State.reset.peek = [0xF0, 0x90, 0x90, 0x90, 0xF0] ∧
    [0x4B, 0x4C, 0x4D, 0x4E, 0x4F, 0x50, 0x1FF].map State.reset.peek = [0xF0, 0x80, 0xF0, 0x80, 0x80, 0, 0] := by decide

/-- T1. -/
theorem test_load_too_long :
    (State.load .default [] (.replicate 3585 0)).run = .halted ⟨.loadError, none, none⟩ := by
  unfold State.load; rw [if_neg (by rw [List.length_replicate]; decide)]

/-- R310: the first bytes of an image stand at 0x200. -/
theorem test_load_places_image :
    (State.load .default [] [0x60, 0x05]).peek 0x200 = 0x60 ∧ (State.load .default [] [0x60, 0x05]).peek 0x201 = 0x05 := by
  decide

/-! ### Instructions -/

/-- T17, T14. -/
theorem test_sys : (after 0x0123 .reset).pc = 0x202 ∧ (after 0x00E1 .reset).run = .running := by decide
/-- T15, T16. -/
theorem test_quit :
    (after 0x00FD .reset).run = at200 .quit 0x00FD ∧
    (after 0x00FD { State.reset with params := flipped }).run = .running := by decide
/-- T130. -/
theorem test_cls :
    (after 0x00E0 { State.reset with fb := FrameBuffer.clear.toggle 3 4 }).fb.pixel 3 4 = false ∧
    (after 0x00E0 .reset).present = false := by decide
/-- T30. -/
theorem test_ret_underflow : (after 0x00EE .reset).run = at200 (.outOfBoundsAccess .stackUnderflow) 0x00EE := by decide
/-- T31. -/
theorem test_ret :
    (after 0x00EE { State.reset with sp := 2, stack := (Vector.replicate 16 0x204).set 1 0x30A }).pc = 0x30A ∧
    (after 0x00EE { State.reset with sp := 2, stack := (Vector.replicate 16 0x204).set 1 0x30A }).sp = 1 := by decide
/-- T36. -/
theorem test_jp : (after 0x1201 .reset).pc = 0x201 := by decide
/-- T32. -/
theorem test_call :
    (after 0x2400 { State.reset with sp := 15 }).pc = 0x400 ∧ (after 0x2400 { State.reset with sp := 15 }).sp = 16 ∧
    (after 0x2400 { State.reset with sp := 15 }).stack[15] = 0x202 := by decide
/-- T33. -/
theorem test_call_overflow :
    (after 0x2400 { State.reset with sp := 16 }).run = at200 (.outOfBoundsAccess .stackOverflow) 0x2400 := by decide
/-- T38, T39. -/
theorem test_jpV0 :
    (after 0xB300 (vs [(0, 0xFF)])).pc = 0x300 ∧
    (after 0xBFFF { vs [(0, 0xFF)] with params := flipped }).pc = 0x10FE := by decide
/-- T40, T41. -/
theorem test_seVxKk : (after 0x3510 (vs [(5, 0x10)])).pc = 0x204 ∧ (after 0x3510 (vs [(5, 0x11)])).pc = 0x202 := by decide
/-- T42, T43. -/
theorem test_sneVxKk : (after 0x4510 (vs [(5, 0x10)])).pc = 0x202 ∧ (after 0x4510 (vs [(5, 0x11)])).pc = 0x204 := by decide
/-- T44, T45. -/
theorem test_seVxVy :
    (after 0x5120 (vs [(1, 7), (2, 7)])).pc = 0x204 ∧ (after 0x5120 (vs [(1, 7), (2, 8)])).pc = 0x202 := by decide
/-- T47, T48. -/
theorem test_sneVxVy : (after 0x9120 (vs [(1, 7), (2, 8)])).pc = 0x204 ∧ (after 0x9330 .reset).pc = 0x202 := by decide
/-- T60, T61. -/
theorem test_ldVxKk : (after 0x6A2B .reset).reg 0xA = 0x2B ∧ (after 0x6F05 .reset).reg .vf = 5 := by decide
/-- T62. -/
theorem test_addVxKk :
    (after 0x7001 (vs [(0, 0xFF), (15, 7)])).reg 0 = 0 ∧ (after 0x7001 (vs [(0, 0xFF), (15, 7)])).reg .vf = 7 := by decide
/-- T65. -/
theorem test_ldVxVy : (after 0x8010 (vs [(1, 0x33)])).reg 0 = 0x33 := by decide
/-- T66. -/
theorem test_orVxVy :
    (after 0x8011 (vs [(0, 0x0F), (1, 0xF0), (15, 1)])).reg 0 = 0xFF ∧
    (after 0x8011 (vs [(0, 0x0F), (1, 0xF0), (15, 1)])).reg .vf = 1 := by decide
/-- T66 under `P_LOGIC_RESETS_VF`. -/
theorem test_orVxVy_resets_vf :
    (after 0x8011 { vs [(0, 0x0F), (1, 0xF0), (15, 1)] with params := flipped }).reg .vf = 0 := by decide
/-- T67. -/
theorem test_andVxVy : (after 0x8012 (vs [(0, 0x3C), (1, 0x0F)])).reg 0 = 0x0C := by decide
/-- T68, T69. -/
theorem test_xorVxVy :
    (after 0x8013 (vs [(0, 0xFF), (1, 0x0F)])).reg 0 = 0xF0 ∧ (after 0x8443 (vs [(4, 0x5A)])).reg 4 = 0 := by decide
/-- T70, T71. -/
theorem test_addVxVy :
    (after 0x8014 (vs [(0, 0x80), (1, 0x80)])).reg .vf = 1 ∧ (after 0x8014 (vs [(0, 0xFF), (1, 0)])).reg .vf = 0 := by decide
/-- T73, T74: VF as the destination keeps the carry; VF as the source is read before it is written. -/
theorem test_addVxVy_vf :
    (after 0x8F14 (vs [(1, 0xF5), (15, 0x10)])).reg .vf = 1 ∧ (after 0x80F4 (vs [(0, 1), (15, 0xFF)])).reg 0 = 0 := by decide
/-- T76. -/
theorem test_subVxVy :
    (after 0x8015 (vs [(0, 0), (1, 1)])).reg 0 = 0xFF ∧ (after 0x8015 (vs [(0, 0), (1, 1)])).reg .vf = 0 := by decide
/-- T77: equal operands under both values of `P_SUB_EQUAL_FLAG`. -/
theorem test_subVxVy_equal :
    (after 0x8015 (vs [(0, 0x42), (1, 0x42)])).reg .vf = 1 ∧
    (after 0x8015 { vs [(0, 0x42), (1, 0x42)] with params := flipped }).reg .vf = 0 := by decide
/-- T83. -/
theorem test_shrVx :
    (after 0x8056 (vs [(0, 3), (5, 0xFF)])).reg 0 = 1 ∧ (after 0x8056 (vs [(0, 3), (5, 0xFF)])).reg .vf = 1 := by decide
/-- T86, T85. -/
theorem test_shrVx_vf : (after 0x8F06 (vs [(15, 2)])).reg .vf = 0 ∧ (after 0x8006 (vs [(0, 0xFF)])).reg 0 = 0x7F := by decide
/-- T81. -/
theorem test_subnVxVy :
    (after 0x8017 (vs [(0, 5), (1, 3)])).reg 0 = 0xFE ∧ (after 0x8017 (vs [(0, 5), (1, 3)])).reg .vf = 0 := by decide
/-- T87, T88. -/
theorem test_shlVx : (after 0x820E (vs [(2, 0x81)])).reg 2 = 2 ∧ (after 0x820E (vs [(2, 0x81)])).reg .vf = 1 := by decide
/-- T100. -/
theorem test_ldI : (after 0xA2F0 .reset).i = 0x2F0 ∧ (after 0xA2F0 .reset).pc = 0x202 := by decide
/-- T91. -/
theorem test_rndVxKk :
    (after 0xC30F { State.reset with inputs := [.engine (keys []) 0xA7] }).reg 3 = 7 := by decide
/-- T102, T103. -/
theorem test_addIVx :
    (after 0xF01E { vs [(0, 1)] with i := 0xFFF }).i = 0x1000 ∧ (after 0xF01E { vs [(0, 1)] with i := 0xFFFF }).i = 0 := by
  decide
/-- T106. -/
theorem test_ldFVx :
    (after 0xF029 (vs [(0, 0x1A)])).i = 0x32 ∧ (after 0xF029 { vs [(0, 0x1A)] with params := flipped }).i = 0x82 := by decide
/-- T113. -/
theorem test_ldBVx :
    [0xFFC, 0xFFD, 0xFFE, 0xFFF].map (after 0xF033 { vs [(0, 0x7B)] with i := 0xFFD }).peek = [0, 1, 2, 3] := by decide
/-- T114. -/
theorem test_ldBVx_fault :
    (after 0xF033 { vs [(0, 0x7B)] with i := 0xFFE }).run = at200 (.outOfBoundsAccess .write) 0xF033 ∧
    (after 0xF033 { vs [(0, 0x7B)] with i := 0xFFE }).peek 0xFFE = 0 := by decide
/-- T115. -/
theorem test_ldMemVx :
    [0x400, 0x401, 0x402, 0x403].map (after 0xF255 { vs [(0, 0x11), (1, 0x22), (2, 0x33), (3, 0x44)] with i := 0x400 }).peek =
      [0x11, 0x22, 0x33, 0] := by decide
/-- T115 under `P_LDST_INCREMENTS_I`, T118. -/
theorem test_ldMemVx_index_and_fault :
    (after 0xF255 { State.reset with i := 0x400, params := flipped }).i = 0x403 ∧
    (after 0xFF55 { State.reset with i := 0xFF1 }).run = at200 (.outOfBoundsAccess .write) 0xFF55 := by decide
/-- T119, with the bytes of glyph 0 from address 0 on (R64). -/
theorem test_ldVxMem :
    [0, 1, 2, 3].map (after 0xF265 (vs [(3, 0x77)])).reg = [0xF0, 0x90, 0x90, 0x77] := by decide
/-- T122. -/
theorem test_ldVxMem_fault :
    (after 0xF165 { State.reset with i := 0xFFF }).run = at200 (.outOfBoundsAccess .read) 0xF165 := by decide
/-- T133: FB[0][0] on, a sprite row C0. -/
theorem test_drw_collision :
    let t := after 0xD011 { State.reset.poke 0x300 0xC0 with i := 0x300, fb := FrameBuffer.clear.toggle 0 0 }
    t.fb.pixel 0 0 = false ∧ t.fb.pixel 1 0 = true ∧ t.reg .vf = 1 ∧ t.present = true := by decide
/-- T135: rows wrap. -/
theorem test_drw_wraps :
    let t := after 0xD012 { ((vs [(1, 31)]).poke 0x300 0x80).poke 0x301 0x80 with i := 0x300 }
    t.fb.pixel 0 31 = true ∧ t.fb.pixel 0 0 = true ∧ t.fb.pixel 0 1 = false := by decide
/-- T150, T151. -/
theorem test_skpVx :
    (after 0xE19E { vs [(1, 5)] with inputs := [.engine (keys [5]) 0] }).pc = 0x204 ∧
    (after 0xE19E { vs [(1, 5)] with inputs := [.engine (keys [4]) 0] }).pc = 0x202 := by decide
/-- T152, T154. -/
theorem test_sknpVx :
    (after 0xE1A1 { vs [(1, 5)] with inputs := [.engine (keys []) 0] }).pc = 0x204 ∧
    (after 0xE1A1 (vs [(1, 0x10)])).run = at200 (.outOfBoundsAccess .keyIndex) 0xE1A1 := by decide
/-- T159. -/
theorem test_ldVxDt : (after 0xF407 { State.reset with dt := 0x3C }).reg 4 = 0x3C := by decide
/-- T155. -/
theorem test_ldVxK :
    (after 0xF20A { State.reset with inputs := [.engine (keys [3, 15]) 0] }).reg 2 = 3 ∧
    (after 0xF20A { State.reset with inputs := [.engine (keys [3, 15]) 0] }).run = .running := by decide
/-- S11. -/
theorem test_ldVxK_blocks :
    (after 0xF30A { State.reset with inputs := [.engine (keys []) 0] }).run = .blocked 3 ∧
    (after 0xF30A { State.reset with inputs := [.engine (keys []) 0] }).pc = 0x202 := by decide
/-- T160. -/
theorem test_ldDtVx : (after 0xF215 (vs [(2, 5)])).dt = 5 := by decide
/-- T161, T164. -/
theorem test_ldStVx :
    (after 0xF218 (vs [(2, 2)])).soundActive = true ∧ (after 0xF018 { State.reset with st := 9 }).soundActive = false := by
  decide

/-! ### Ticks, polls and the host -/

/-- The state after one step. -/
def next (s : State) : State :=
  match step s with
  | .next t => t
  | .fault _ | .refused _ => s

/-- T163. -/
theorem test_tick : (next { State.reset with st := 3, inputs := [.tick] }).dt = 0 ∧
    (next { State.reset with st := 3, inputs := [.tick] }).st = 2 := by decide
/-- T157. -/
theorem test_tick_blocked :
    (next { State.reset with dt := 5, run := .blocked 2, inputs := [.tick] }).dt = 5 ∧
    (next { State.reset with dt := 5, run := .blocked 2, inputs := [.tick], params := flipped }).dt = 4 := by decide
/-- T158. -/
theorem test_cancel :
    (next { State.reset with run := .blocked 2, inputs := [.cancel] }).run = .halted ⟨.cancelled, none, none⟩ := by decide
/-- P4, step 22. -/
theorem test_poll :
    (next { State.reset with run := .blocked 1, inputs := [.engine (keys [7, 9]) 0] }).reg 1 = 7 ∧
    (next { State.reset with run := .blocked 1, inputs := [.engine (keys [7, 9]) 0] }).run = .running := by decide
/-- T23. -/
theorem test_halted_has_no_step :
    step { State.reset with run := at200 .quit 0x00FD } = .fault (.noStepEnabled ⟨.quit, some 0x200, some 0x00FD⟩) := rfl

/-! ### Witnesses: a state and operands that meet the hypotheses of each obligation -/

/-- `s`, about to execute the word `w`. -/
abbrev placed (w : Nat) (s : State := .reset) : State := s.withFetchWord 16 w

theorem witness_DecodingTheEncodingGivesTheInstruction :
    (Instr.drw 15 15 15).ownsWord q = true ∧ (Instr.sys 0xFFF).ownsWord q = true ∧
    (Instr.quit 0x00FD).ownsWord q = true ∧ (Instr.quit 0x1234).ownsWord [0x1234] = true := by decide

theorem witness_EncodingADecodedWordGivesTheWord :
    decodeWord q 0xFF65 = .ok (.ldVxMem 15) ∧ decodeWord q 0x00EE = .ok .ret := by decide

theorem witness_ExactWordsThenQuitThenSys :
    ((0x00FD : Word) ≠ 0x00E0 ∧ (0x00FD : Word) ≠ 0x00EE ∧ (0x00FD : Word) ∈ q) ∧
    ((0x0FFF : Word) ≠ 0x00E0 ∧ (0x0FFF : Word) ≠ 0x00EE ∧ (0x0FFF : Word) ∉ q ∧ (0x0FFF : Word).toNat < 0x1000) := by decide

theorem witness_DecodingFollowsTheRowsOfTheTable :
    (0x1000 : Word) ≠ 0x00E0 ∧ (0x1000 : Word) ≠ 0x00EE ∧ (0x1000 : Word) ∉ q ∧ decodeWord q 0x1000 = .ok (.jp 0) ∧
    (Instr.jp 0).row ∈ patternRows ∧ (Instr.jp 0).row.matches 0x1000 = true := by decide

theorem witness_UnimplementedWordsAreFiveClasses :
    (0x5121 : Word) ∉ q ∧ (0x800F : Word) ∉ q ∧ (0x9001 : Word) ∉ q ∧ (0xE09F : Word) ∉ q ∧ (0xFFFF : Word) ∉ q := by decide

/-- A scheduled engine turn, tick and cancel, and nothing scheduled, in a state that is not HALTED. -/
theorem witness_NextAgentIsScheduledOrAFreeDraw :
    ({ State.reset with inputs := [.engine (keys [1]) 9] } : State).nextInput = .engine (keys [1]) 9 ∧
    ({ State.reset with inputs := [.tick] } : State).nextInput = .tick ∧
    ({ State.reset with inputs := [.cancel] } : State).nextInput = .cancel ∧
    State.reset.inputs = [] ∧ ∀ h, State.reset.run ≠ .halted h :=
  ⟨rfl, rfl, rfl, rfl, fun h => by simp [State.reset]⟩

/-- At the last address a fetch can read. -/
theorem witness_StepRunsTheDecodedInstruction :
    let s := placed 0x6107 { State.reset with pc := 0xFFE, inputs := [.engine (keys [1]) 9] }
    s.run = .running ∧ s.nextInput = .engine (keys [1]) 9 ∧ s.pc.toNat + 1 ≤ 0xFFF ∧
    (0x6107 : Word).toNat = (s.peek s.pc.toNat).toNat * 0x100 + (s.peek (s.pc.toNat + 1)).toNat ∧
    decodeWord s.params.quitOpcodes 0x6107 = .ok (.ldVxKk 1 7) := by
  decide

theorem witness_FetchReadsBigEndianAndAdvances :
    ({ State.reset with pc := 0xFFE } : State).pc.toNat + 1 ≤ 0xFFF ∧
    0xFFF < ({ State.reset with pc := 0xFFF } : State).pc.toNat + 1 ∧
    ({ State.reset with pc := 0xFFF } : State).run = .running := by decide

theorem witness_FetchAndDecodeFaultsHalt :
    let s : State := placed 0 { State.reset with pc := 0xFFF }
    let s' := placed 0x5121 { State.reset with pc := 0xFFE }
    (s.run = .running ∧ s.engineNext = true ∧ 0xFFF < s.pc.toNat + 1) ∧
    (s'.run = .running ∧ s'.engineNext = true ∧ s'.pc.toNat + 1 ≤ 0xFFF ∧
      (0x5121 : Word).toNat = (s'.peek s'.pc.toNat).toNat * 0x100 + (s'.peek (s'.pc.toNat + 1)).toNat ∧
      decodeWord s'.params.quitOpcodes 0x5121 = .error (.unimplementedOpcode 0x5121)) := by decide

theorem lowest_of_7_and_9 : LowestPressed (keys [7, 9]) 7 := ⟨by decide, by decide⟩
theorem lowest_is_0 : LowestPressed (keys [0, 15]) 0 := ⟨by decide, by decide⟩
theorem lowest_is_15 : LowestPressed (keys [15]) 15 := ⟨by decide, by decide⟩
theorem none_pressed : NonePressed (keys []) := by unfold NonePressed; decide

theorem witness_PollTakesTheLowestPressedKey :
    ({ State.reset with run := .blocked 1, inputs := [.engine (keys [15]) 0] } : State).run = .blocked 1 ∧
    ({ State.reset with run := .blocked 1, inputs := [.engine (keys [15]) 0] } : State).nextInput = .engine (keys [15]) 0 ∧
    LowestPressed (keys [15]) 15 ∧ LowestPressed (keys [0, 15]) 0 ∧ NonePressed (keys []) :=
  ⟨rfl, rfl, lowest_is_15, lowest_is_0, none_pressed⟩

theorem witness_BlockedEngineStaysBlockedWithoutAKey :
    let s : State := { State.reset with run := .blocked 3, inputs := [.engine (keys []) 1, .engine (keys []) 2] }
    s.run = .blocked 3 ∧ 2 ≤ s.inputs.length ∧
    ∀ e ∈ s.inputs.take 2, ∃ k b, e = .engine k b ∧ NonePressed k := by
  refine ⟨rfl, by decide, fun e he => ?_⟩
  simp only [List.take, List.mem_cons, List.not_mem_nil, or_false] at he
  rcases he with rfl | rfl <;> exact ⟨_, _, rfl, none_pressed⟩

theorem witness_StepIsEnabledExactlyWhenNotHalted :
    ({ State.reset with run := at200 .quit 0x00FD } : State).run = .halted ⟨.quit, some 0x200, some 0x00FD⟩ ∧
    ∀ h, ({ State.reset with run := .blocked 0 } : State).run ≠ .halted h := ⟨rfl, fun h => by simp⟩

theorem witness_TickLowersBothTimersByOne :
    State.reset.run = .running ∧
    ∃ r, ({ State.reset with run := .blocked 2, params := flipped } : State).run = .blocked r ∧
      ({ State.reset with run := .blocked 2, params := flipped } : State).params.ticksWhileBlocked = true :=
  ⟨rfl, 2, rfl, rfl⟩

theorem witness_TicksWhileBlockedByParameter :
    let s : State := { State.reset with dt := 5, run := .blocked 2, inputs := [.tick] }
    (s.nextInput = .tick ∧ s.run = .blocked 2 ∧ s.params.ticksWhileBlocked = false) ∧
    flipped.ticksWhileBlocked = true := by decide

theorem witness_TicksCountDownToZeroAndStay :
    let s : State := { State.reset with dt := 1, inputs := [.tick, .tick] }
    s.run = .running ∧ 2 ≤ s.inputs.length ∧ ∀ e ∈ s.inputs.take 2, e = .tick := by decide

theorem witness_CancelHaltsRunningAndBlocked :
    let s : State := { State.reset with run := .blocked 2, inputs := [.cancel] }
    s.nextInput = .cancel ∧ ∀ h, s.run ≠ .halted h := ⟨rfl, fun h => by simp⟩

theorem witness_FaultingStepChangesOnlyRun :
    (placed 0x00EE).run = .running ∧ (placed 0x00EE).engineNext = true ∧
    ∃ t, step (placed 0x00EE) = .next t ∧
      t.run = .halted ⟨.outOfBoundsAccess .stackUnderflow, some 0x200, some 0x00EE⟩ :=
  ⟨by decide, by decide, _, rfl, by decide⟩

/-- Every instruction that has a check, at the boundary of the check. -/
theorem witness_EachInstructionFaultsExactlyOnItsOwnCheck :
    State.reset.run = .running ∧ ownFault .reset (.quit 0x00FD) = some .quit ∧
    ownFault .reset .ret = some (.outOfBoundsAccess .stackUnderflow) ∧
    ownFault { State.reset with sp := 16 } (.call 0) = some (.outOfBoundsAccess .stackOverflow) ∧
    ownFault { State.reset with sp := 15 } (.call 0) = none ∧
    ownFault { State.reset with i := 0xFFF } (.drw 0 0 2) = some (.outOfBoundsAccess .read) ∧
    ownFault { State.reset with i := 0xFFF } (.drw 0 0 1) = none ∧
    ownFault { State.reset with i := 0xFFE } (.ldBVx 0) = some (.outOfBoundsAccess .write) ∧
    ownFault { State.reset with i := 0xFFD } (.ldBVx 0) = none ∧
    ownFault (vs [(1, 0x10)]) (.skpVx 1) = some (.outOfBoundsAccess .keyIndex) ∧
    ownFault (vs [(1, 0x0F)]) (.sknpVx 1) = none := by decide

theorem witness_FramebufferChangesOnlyByDrawAndClear :
    ∃ t, step (placed 0xD011) = .next t ∧ t.fb ≠ (placed 0xD011).fb :=
  ⟨_, rfl, fun h => by have := congrArg (fun fb => fb.pixel 0 0) h; revert this; decide⟩

theorem witness_MemoryChangesOnlyByTheTwoStores :
    ∃ t, step (placed 0xF033 { vs [(0, 0x7B)] with i := 0x300 }) = .next t ∧
      ¬ MemUnchanged (placed 0xF033 { vs [(0, 0x7B)] with i := 0x300 }) t :=
  ⟨_, rfl, fun h => by have := h 0x300; revert this; decide⟩

theorem witness_StackChangesOnlyByCallAndReturn :
    ∃ t, step (placed 0x2400) = .next t ∧ t.stack ≠ (placed 0x2400).stack ∧ t.sp ≠ (placed 0x2400).sp :=
  ⟨_, rfl, by decide, by decide⟩

theorem witness_RegistersChangeOnlyAsDestinationOrFlag :
    ∃ t, exec (.addVxVy 1 2) (vs [(1, 0xFF), (2, 1)]) = .next t ∧ t.reg 15 ≠ (vs [(1, 0xFF), (2, 1)]).reg 15 ∧
      (0 : Reg) ∉ regsWritten .default (.addVxVy 1 2) := ⟨_, rfl, by decide, by decide⟩

theorem witness_SpecialRegistersChangeOnlyByTheirWriters :
    (∃ t, exec (.ldI 0x300) .reset = .next t ∧ t.i ≠ State.reset.i) ∧
    (∃ t, exec (.ldDtVx 2) (vs [(2, 5)]) = .next t ∧ t.dt ≠ (vs [(2, 5)]).dt) ∧
    (∃ t, exec (.ldStVx 2) (vs [(2, 5)]) = .next t ∧ t.st ≠ (vs [(2, 5)]).st) ∧
    (∃ t, exec (.jp 0x300) .reset = .next t ∧ t.pc ≠ State.reset.pc) ∧
    ∃ t, step (placed 0x6107) = .next t :=
  ⟨⟨_, rfl, by decide⟩, ⟨_, rfl, by decide⟩, ⟨_, rfl, by decide⟩, ⟨_, rfl, by decide⟩, _, rfl⟩

theorem witness_TimersRiseOnlyWhenLoaded :
    (∃ t, step { State.reset with dt := 1, inputs := [.tick] } = .next t ∧ t.dt ≠ 1) ∧
    ∃ t, step (placed 0xF218 (vs [(2, 5)])) = .next t ∧ t.st ≠ 0 := ⟨⟨_, rfl, by decide⟩, _, rfl, by decide⟩

theorem witness_PresentIsRaisedExactlyByDraws :
    (∃ t, step (placed 0xD011) = .next t ∧ t.present = true) ∧
    ∃ t, step (placed 0x00E0) = .next t ∧ t.present = false := ⟨⟨_, rfl, by decide⟩, _, rfl, by decide⟩

theorem witness_SamplesMatterOnlyToTheirReaders :
    (∀ x, Instr.rndVxKk 0 1 ≠ .skpVx x ∧ Instr.rndVxKk 0 1 ≠ .sknpVx x ∧ Instr.rndVxKk 0 1 ≠ .ldVxK x) ∧
    ∀ x kk, Instr.skpVx 0 ≠ .rndVxKk x kk := ⟨fun x => by simp, fun x kk => by simp⟩

/-- Two different states, one with a return address left over in slot 1. -/
theorem witness_DeadStackSlotsAreUnobservable :
    let s : State := { State.reset with sp := 1 }
    let s' : State := { State.reset with sp := 1, stack := (Vector.replicate 16 0).set 1 0x202 }
    SameButDeadSlots s s' ∧ s'.stack ≠ s.stack := ⟨⟨rfl, by decide⟩, by decide⟩

theorem witness_StepKeepsTheInvariant :
    ({ State.reset with inputs := [.tick] } : State).Inv ∧ ∃ t, step { State.reset with inputs := [.tick] } = .next t := by
  refine ⟨⟨⟨.nil, by simp [State.reset]⟩, by decide, fun k hk => ?_, fun h hh => by cases hh⟩, _, rfl⟩
  simp [State.reset] at hk

theorem witness_LoadPlacesFontAndRomOrHalts :
    (List.replicate 3584 (0 : Byte)).length ≤ 3584 ∧ 3584 < (List.replicate 3585 (0 : Byte)).length := by
  simp only [List.length_replicate]; decide

theorem witness_EntryPointIs0x200 : ([0x12, 0x34] : List Byte).length ≤ 3584 := by decide

/-- The whole address range of a jump, its own address, and a word of the row. -/
theorem witness_JumpSetsPcToTheTarget :
    ((0x1FFF : Word) ∉ q ∧ (0x1FFF : Word) &&& 0xF000 = 0x1000) ∧
    ({ State.reset with pc := 0x202 } : State).pc.toNat = (0x200 : Addr).toNat + 2 ∧ (0xFFF : Addr) = 0xFFF := by decide

theorem witness_CallPushesThePostFetchPc :
    ({ State.reset with sp := 15 } : State).sp.val < 16 ∧ ({ State.reset with sp := 16 } : State).sp = 16 := by decide

theorem witness_ReturnPopsThePc :
    ({ State.reset with sp := 16 } : State).sp.val = (15 : Fin 16).val + 1 ∧
    ({ State.reset with sp := 1 } : State).sp.val = (0 : Fin 16).val + 1 ∧ State.reset.sp = 0 := by decide

theorem witness_ReturnUndoesCall :
    ({ State.reset with sp := 15 } : State).sp.val < 16 ∧ ∃ t, exec (.call 0x400) { State.reset with sp := 15 } = .next t :=
  ⟨by decide, _, rfl⟩

theorem witness_LoadImmediateWritesItsRegister :
    (0x6FFF : Word) ∉ q ∧ (0x6FFF : Word) &&& 0xF000 = 0x6000 := by decide

theorem witness_LogicOperationsActBitByBit :
    (Instr.andVxVy 15 1 = .andVxVy 15 1 ∧ and = and) ∧ Params.default.logicResetsVf = false ∧
    flipped.logicResetsVf = true ∧ (0 : Reg) ≠ .vf := by decide

theorem witness_SubtractionsWriteDifferenceThenNotBorrow :
    Instr.subVxVy 0 1 = .subVxVy 0 1 ∧ 5 = ((vs [(0, 5), (1, 5)]).reg 0).toNat ∧ 5 = ((vs [(0, 5), (1, 5)]).reg 1).toNat := by
  decide

theorem witness_LoadIndexSetsIAlone : (0xAFFF : Word) ∉ q ∧ (0xAFFF : Word) &&& 0xF000 = 0xA000 := by decide

theorem witness_IndexAddAndGlyphAddress :
    Params.default.fontIndex = .lowNibble ∧ flipped.fontIndex = .fullByte := by decide

theorem witness_BcdStoresThreeDigits :
    ({ State.reset with i := 0xFFD } : State).effAddr 2 ≤ 0xFFF ∧
    0xFFF < ({ State.reset with i := 0xFFE } : State).effAddr 2 := by decide

/-- For R205 and R206 alike. -/
theorem witness_RegisterDumpStoresV0ToVx_and_RegisterLoadFillsV0ToVx :
    ({ State.reset with i := 0xFF0 } : State).effAddr (15 : Reg).val ≤ 0xFFF ∧
    0xFFF < ({ State.reset with i := 0xFF1 } : State).effAddr (15 : Reg).val ∧
    ({ State.reset with i := 0xFFF } : State).effAddr (0 : Reg).val ≤ 0xFFF := by decide

/-- The store covers both bytes of the next fetch, and the first of them only. -/
theorem witness_StoreIsSeenByTheNextFetch :
    let s : State := { State.reset with i := 0xFFE, pc := 0xFFE }
    let s' : State := { State.reset with i := 0xFFD, pc := 0xFFE }
    (s.pc.toNat + 1 ≤ 0xFFF ∧ s.effAddr (1 : Reg).val ≤ 0xFFF ∧ s.effAddr (0 : Reg).val ≤ 0xFFF) ∧
    (s'.pc.toNat + 1 ≤ 0xFFF ∧ s'.effAddr 2 ≤ 0xFFF) := by decide

/-- R321: the digits of 123 that Fx33 leaves at PC are the next word. -/
theorem test_store_is_fetched :
    (fetch (after 0xF033 { vs [(0, 0x7B)] with i := 0x202 })).map Prod.fst = some 0x0102 := by decide

theorem witness_DrawXorsTheSpriteAndReportsCollision :
    let s : State := { State.reset with i := 0xFF1 }
    (s.i.toNat + (15 : Nibble).toNat - 1 ≤ 0xFFF) ∧ (0 : Nibble).toNat = 0 ∧
    (0 < (15 : Nibble).toNat ∧ 0xFFF < ({ State.reset with i := 0xFF2 } : State).i.toNat + (15 : Nibble).toNat - 1) := by
  decide

/-- A sprite bit that covers a lit pixel, and one that covers an unlit pixel. -/
theorem witness_SpriteCovers :
    SpriteCovers .reset 63 31 5 0 31 ∧ State.reset.fb.pixel 0 31 = false ∧
    ({ State.reset with fb := FrameBuffer.clear.toggle 0 31 } : State).fb.pixel 0 31 = true :=
  ⟨⟨0, 1, by decide, by decide, by decide, by decide, by decide⟩, by decide, by decide⟩

theorem witness_DrawingTwiceRestoresTheFramebuffer :
    (0 : Reg) ≠ .vf ∧ (1 : Reg) ≠ .vf ∧ State.reset.i.toNat + (5 : Nibble).toNat - 1 ≤ 0xFFF := by decide

theorem witness_KeySkipsFollowTheSample :
    ((vs [(1, 0x0F)]).reg 1).toNat = (15 : Reg).val ∧ ((vs [(1, 0)]).reg 1).toNat = (0 : Reg).val ∧
    0xF < ((vs [(1, 0x10)]).reg 1).toNat := by decide

theorem witness_KeyWaitCompletesOrBlocks :
    LowestPressed ({ State.reset with keyIn := keys [15] } : State).keyIn 15 ∧ NonePressed State.reset.keyIn :=
  ⟨lowest_is_15, none_pressed⟩

/-- What the frames are about: a fault, a halt and a skip of one instruction each. -/
theorem witness_frames :
    FaultsWith (.outOfBoundsAccess .stackUnderflow) .ret .reset (raise (.outOfBoundsAccess .stackUnderflow) 0x00EE .reset) ∧
    SkipsWhen ((vs [(5, 0x10)]).reg 5 = 0x10) (.seVxKk 5 0x10) (vs [(5, 0x10)]) :=
  ⟨⟨rfl, fun _ _ => rfl, fun _ => rfl⟩, _, rfl, ⟨rfl, fun _ _ => rfl, fun _ => rfl⟩, fun _ => by decide, fun h => absurd (by decide) h⟩

end Sys2Proof.Tests
end

section
/-! PROOFS. The engine (40_engine.md): what the fetch reads, and what it leaves (R121). -/

namespace Sys2Proof.Machine

/-- R121 writes the fetched word with a shift and an or, the model with a sum: the two bytes share no bit. -/
theorem wordOfBytes_eq_shiftLeft_or (hi lo : Byte) :
    wordOfBytes hi lo = hi.setWidth 16 <<< 8 ||| lo.setWidth 16 := by
  have hdisjoint : hi.toNat <<< 8 + lo.toNat = hi.toNat <<< 8 ||| lo.toNat :=
    Nat.shiftLeft_add_eq_or_of_lt lo.isLt hi.toNat
  have hfits : hi.toNat <<< 8 < 2 ^ 16 := by have := hi.isLt; rw [Nat.shiftLeft_eq]; omega
  have hhi : (hi.setWidth 16).toNat = hi.toNat := BitVec.toNat_setWidth_of_le (by decide)
  have hlo : (lo.setWidth 16).toNat = lo.toNat := BitVec.toNat_setWidth_of_le (by decide)
  apply wordOfBytes_eq
  rw [BitVec.toNat_or, BitVec.toNat_shiftLeft, hhi, hlo, Nat.mod_eq_of_lt hfits, ← hdisjoint, Nat.shiftLeft_eq]

/-- The fetch inside memory: the word at PC, and PC + 2. -/
theorem fetch_inside {s : State} (hp : s.pc.toNat + 1 ≤ 0xFFF) :
    fetch s =
      some (wordOfBytes (s.peek s.pc.toNat) (s.peek (s.pc.toNat + 1)), { s with pc := s.pc + 2 }) := by
  rcases fetch_cases s with ⟨hbeyond, -⟩ | ⟨-, e⟩
  · omega
  · exact e

/-- The fetch beyond memory gives nothing. -/
theorem fetch_beyond {s : State} (hp : 0xFFF < s.pc.toNat + 1) : fetch s = none := by
  rcases fetch_cases s with ⟨-, e⟩ | ⟨hinside, -⟩
  · exact e
  · omega

end Sys2Proof.Machine

open Sys2Proof Sys2Proof.Machine

/-- Settles O8: the two cases of the fetch, PC + 1 inside and beyond memory, and the fault that an engine step takes in the
second. -/
theorem fetchReadsBigEndianAndAdvances : Obligations.FetchReadsBigEndianAndAdvances := by
  unfold Obligations.FetchReadsBigEndianAndAdvances
  intro s
  refine ⟨fun hinside => ?_, fun hbeyond => ⟨fetch_beyond hbeyond, fun hrun => ?_⟩⟩
  · rw [fetch_inside hinside, wordOfBytes_eq_shiftLeft_or]
  · exact ⟨_, _, engineStep_beyond s hrun hbeyond, takeFault_run .., rfl⟩

end

section
/-! PROOFS. Control flow (41_control_flow.md): the jump 1nnn (R142). -/

namespace Sys2Proof

theorem zext_toNat (nnn : Addr) : (Machine.zext nnn).toNat = nnn.toNat :=
  BitVec.toNat_setWidth_of_le (by decide)

/-- The major opcode is what the mask of a row with one fixed nibble leaves of the word (R95). -/
theorem fieldA_of_and_F000 {op c : Word} (h : op &&& 0xF000 = c) : fieldA op = fieldA c := by
  have hmask : op.toNat / 4096 * 4096 = c.toNat := by rw [← and_F000, h]
  apply BitVec.eq_of_toNat_eq
  rw [fieldA_toNat, fieldA_toNat, ← hmask, Nat.mul_div_cancel _ (by decide)]

/-- A word outside `P_QUIT_OPCODES` with a major opcode other than 0 is left to the patterns (R93): the exact words have a = 0. -/
theorem decodeWord_eq_decodePattern {quit : List Word} {op : Word} (hquit : op ∉ quit) (ha : fieldA op ≠ 0) :
    decodeWord quit op = decodePattern op := by
  have hcls : op ≠ 0x00E0 := fun e => ha (e ▸ by decide)
  have hret : op ≠ 0x00EE := fun e => ha (e ▸ by decide)
  have hcontains : ¬ quit.contains op = true := by rwa [List.contains_iff_mem]
  unfold decodeWord
  rw [if_neg hcls, if_neg hret, if_neg hcontains]

theorem decodePattern_jp {op : Word} (ha : fieldA op = 0x1) : decodePattern op = .ok (.jp (fieldNnn op)) := by
  unfold decodePattern
  rw [ha]
  rfl

end Sys2Proof

namespace Sys2Proof.Machine

theorem exec_jp (nnn : Addr) (s : State) : exec (.jp nnn) s = .next { s with pc := zext nnn } := rfl

/-- Writing PC writes nothing else. -/
theorem onlyPc_withPc (s : State) (pc' : Word) : OnlyPc s { s with pc := pc' } :=
  ⟨rfl, fun _ _ => rfl, fun _ => rfl⟩

/-- The instruction at nnn executes with PC at nnn + 2, two above its own address. -/
theorem zext_eq_sub_two {pc : Word} {nnn : Addr} (h : pc.toNat = nnn.toNat + 2) : zext nnn = pc - 2 := by
  have hzext := zext_toNat nnn
  bv_omega

end Sys2Proof.Machine

open Sys2Proof Sys2Proof.Machine

/-- Settles O35: the row of a = 1, then the jump's one assignment, at its own address and at 0xFFF. -/
theorem jumpSetsPcToTheTarget : Obligations.JumpSetsPcToTheTarget := by
  unfold Obligations.JumpSetsPcToTheTarget
  refine ⟨fun quit op hquit hrow => ?_, fun nnn s => ⟨_, exec_jp nnn s, onlyPc_withPc s _, zext_toNat nnn, ?_, ?_⟩⟩
  · have ha : fieldA op = 0x1 := fieldA_of_and_F000 hrow
    rw [decodeWord_eq_decodePattern hquit (ha ▸ by decide), decodePattern_jp ha, fieldNnn]
  · intro hself
    rw [zext_eq_sub_two hself]
  · rintro rfl
    exact fetch_beyond (by rw [zext_toNat]; decide)

end

section
/-! PROOFS. Register arithmetic (42_alu.md): the immediate load 6xkk (R172). -/

namespace Sys2Proof

theorem decodePattern_ldVxKk {op : Word} (ha : fieldA op = 0x6) :
    decodePattern op = .ok (.ldVxKk (fieldX op) (fieldKk op)) := by
  unfold decodePattern
  rw [ha]
  rfl

end Sys2Proof

namespace Sys2Proof.Machine

theorem exec_ldVxKk (x : Reg) (kk : Byte) (s : State) : exec (.ldVxKk x kk) s = .next (s.setReg x kk) := rfl

/-- Writing one register writes no other register, no memory and nothing beside V. -/
theorem onlyRegs_setReg (s : State) (x : Reg) (b : Byte) : OnlyRegs [x] s (s.setReg x b) :=
  ⟨rfl, fun _ hr => reg_setReg_ne s b (List.ne_of_not_mem_cons hr), peek_setReg s x b⟩

end Sys2Proof.Machine

open Sys2Proof Sys2Proof.Machine

/-- Settles O41: the row of a = 6, then the instruction's one register write. -/
theorem loadImmediateWritesItsRegister : Obligations.LoadImmediateWritesItsRegister := by
  unfold Obligations.LoadImmediateWritesItsRegister
  refine ⟨fun quit op hquit hrow => ?_,
    fun x kk s => ⟨_, exec_ldVxKk x kk s, onlyRegs_setReg s x kk, reg_setReg_self s x kk⟩⟩
  have ha : fieldA op = 0x6 := fieldA_of_and_F000 hrow
  have hx : fieldX op = ⟨op.toNat / 0x100 % 16, Nat.mod_lt _ (Nat.succ_pos 15)⟩ := Fin.ext (fieldX_val op)
  rw [decodeWord_eq_decodePattern hquit (ha ▸ by decide), decodePattern_ldVxKk ha, hx, fieldKk]

end

section
/-! PROOFS. The index register (43_index_memory.md): the immediate load Annn (R201). -/

namespace Sys2Proof

theorem decodePattern_ldI {op : Word} (ha : fieldA op = 0xA) : decodePattern op = .ok (.ldI (fieldNnn op)) := by
  unfold decodePattern
  rw [ha]
  rfl

end Sys2Proof

namespace Sys2Proof.Machine

theorem exec_ldI (nnn : Addr) (s : State) : exec (.ldI nnn) s = .next { s with i := zext nnn } := rfl

/-- Writing I writes no register. -/
theorem regsUnchanged_withI (s : State) (i' : Word) : RegsUnchanged [] s { s with i := i' } := fun _ _ => rfl

/-- Writing I writes no memory. -/
theorem memUnchanged_withI (s : State) (i' : Word) : MemUnchanged s { s with i := i' } := fun _ => rfl

end Sys2Proof.Machine

open Sys2Proof Sys2Proof.Machine

/-- Settles O48: the row of a = A, then the instruction's one assignment to I. -/
theorem loadIndexSetsIAlone : Obligations.LoadIndexSetsIAlone := by
  unfold Obligations.LoadIndexSetsIAlone
  refine ⟨fun quit op hquit hrow => ?_, fun nnn s =>
    ⟨_, exec_ldI nnn s, rfl, regsUnchanged_withI s _, memUnchanged_withI s _, zext_toNat nnn⟩⟩
  have ha : fieldA op = 0xA := fieldA_of_and_F000 hrow
  rw [decodeWord_eq_decodePattern hquit (ha ▸ by decide), decodePattern_ldI ha, fieldNnn]

end

section
/-! PROOFS. The timer (45_timers_input.md): when the tick step is enabled (R258), and what it does (R259). -/

namespace Sys2Proof.Machine

/-- R258: the tick step is enabled while RUNNING, and while BLOCKED by `P_TICKS_WHILE_BLOCKED`. -/
theorem tickEnabled_iff (s : State) :
    s.tickEnabled = true ↔ s.run = .running ∨ ∃ r, s.run = .blocked r ∧ s.params.ticksWhileBlocked = true := by
  unfold State.tickEnabled
  cases s.run with
  | running => simp
  | blocked r => simp
  | halted h => simp

/-- An enabled tick counts both timers down. -/
theorem tick_of_enabled {s : State} (henabled : s.tickEnabled = true) :
    s.tick = { s with dt := countDown s.dt, st := countDown s.st } :=
  if_pos henabled

/-- A tick, enabled or not, writes no memory. -/
theorem memUnchanged_tick (s : State) : MemUnchanged s s.tick := by
  have hmem : s.tick.mem = s.mem := by rw [tick_only_timers s]
  have hparams : s.tick.params = s.params := by rw [tick_only_timers s]
  exact peek_congr hmem hparams

end Sys2Proof.Machine

open Sys2Proof Sys2Proof.Machine

/-- Settles O13: the enabled tick counts each timer down, and `countDown` is subtraction with floor 0. -/
theorem tickLowersBothTimersByOne : Obligations.TickLowersBothTimersByOne := by
  unfold Obligations.TickLowersBothTimersByOne
  intro s hrun
  have htick := tick_of_enabled ((tickEnabled_iff s).mpr hrun)
  refine ⟨?_, ?_, tick_only_timers s, memUnchanged_tick s⟩
  · rw [htick]
    exact countDown_toNat s.dt
  · rw [htick]
    exact countDown_toNat s.st

end

section
/-! PROOFS. Load and reset (70_reset_and_hazards.md): what an accepted image leaves (R310), and the first fetch (R311). -/

namespace Sys2Proof.Machine

variable {p : Params} {inputs : List Input} {rom : List Byte}

/-- An image that fits is stored from 0x200 on, into the reset state. -/
theorem load_of_fits (hfits : rom.length ≤ 3584) :
    State.load p inputs rom = ({ State.reset with params := p, inputs := inputs } : State).pokes 0x200 rom :=
  if_pos hfits

/-- Loading an image that fits writes nothing but memory into the reset state. -/
theorem load_only_mem (hfits : rom.length ≤ 3584) :
    State.load p inputs rom =
      { State.reset with params := p, inputs := inputs, mem := (State.load p inputs rom).mem } := by
  rw [load_of_fits hfits]
  exact pokes_only_mem rom _ 0x200

theorem load_pc (hfits : rom.length ≤ 3584) : (State.load p inputs rom).pc = 0x200 := by
  rw [load_only_mem hfits]
  rfl

theorem load_run (hfits : rom.length ≤ 3584) : (State.load p inputs rom).run = .running := by
  rw [load_only_mem hfits]
  rfl

/-- An image that fits stands verbatim from 0x200 on. -/
theorem peek_load_image (hfits : rom.length ≤ 3584) (k : Nat) (hk : k < rom.length) :
    (State.load p inputs rom).peek (0x200 + k) = rom[k] := by
  have hinside : 0x200 ≤ 0x200 + k ∧ 0x200 + k < 0x200 + rom.length := by omega
  rw [load_of_fits hfits, peek_pokes, dif_pos hinside]
  simp only [Nat.add_sub_cancel_left]

/-- At the entry point the fetch reads the two bytes at 0x200 and 0x201. -/
theorem fetch_at_entry {s : State} (hpc : s.pc = 0x200) :
    fetch s = some (wordOfBytes (s.peek 0x200) (s.peek 0x201), { s with pc := 0x202 }) := by
  have hinside : s.pc.toNat + 1 ≤ 0xFFF := by rw [hpc]; decide
  rw [fetch_inside hinside, hpc]
  rfl

end Sys2Proof.Machine

open Sys2Proof Sys2Proof.Machine

/-- Settles O33: the load writes only memory into the reset state, whose PC is inside memory, so the fetch succeeds there. -/
theorem entryPointIs0x200 : Obligations.EntryPointIs0x200 := by
  unfold Obligations.EntryPointIs0x200
  intro p inputs rom hfits
  exact ⟨load_pc hfits, load_run hfits, peek_load_image hfits, fetch_at_entry (load_pc hfits)⟩

end

section
/-! PROOFS. Encoding (30_encoding.md): the patterns of R95 and the precedence of R93, decoded and encoded. -/

namespace Sys2Proof

/-! ### The patterns -/

/-- The instructions of R93's precedences 2 to 4, which `decodePattern` decodes: all but the exact words and QUIT. -/
def Instr.isPattern : Instr → Bool
  | .cls | .ret | .quit _ => false
  | _ => true

/-- The instructions of the rows with a = 1 to F (R95 rows 4 to 35). -/
def Instr.isTabled : Instr → Bool
  | .cls | .ret | .quit _ | .sys _ => false
  | _ => true

theorem isTabled_or_sys {i : Instr} (h : i.isPattern = true) : i.isTabled = true ∨ ∃ nnn, i = .sys nnn := by
  cases i with
  | cls | ret | quit _ => cases h
  | sys nnn => exact .inr ⟨nnn, rfl⟩
  | _ => exact .inl rfl

/-- Every operand is read back from the field it was written to. -/
theorem decodePattern_encode {i : Instr} (h : i.isPattern = true) : decodePattern (encode i) = .ok i := by
  cases i with
  | cls | ret | quit _ => cases h
  | sys _ | jp _ | call _ | ldI _ | jpV0 _ =>
    simp [encode, decodePattern, fieldA_wordNnn, fieldNnn_wordNnn]
  | seVxKk _ _ | sneVxKk _ _ | ldVxKk _ _ | addVxKk _ _ | rndVxKk _ _ =>
    simp [encode, decodePattern, fieldA_wordXkk, fieldX_wordXkk, fieldKk_wordXkk]
  | seVxVy _ _ | sneVxVy _ _ | drw _ _ _ =>
    simp [encode, decodePattern, fieldA_wordXyn, fieldX_wordXyn, fieldY_wordXyn, fieldN_wordXyn]
  | ldVxVy _ _ | orVxVy _ _ | andVxVy _ _ | xorVxVy _ _ | addVxVy _ _ | subVxVy _ _ | shrVx _ _ | subnVxVy _ _
  | shlVx _ _ =>
    simp [encode, decodePattern, decodeAlu, fieldA_wordXyn, fieldX_wordXyn, fieldY_wordXyn, fieldN_wordXyn]
  | skpVx _ | sknpVx _ => simp [encode, decodePattern, decodeKey, fieldA_wordXkk, fieldX_wordXkk, fieldKk_wordXkk]
  | ldVxDt _ | ldVxK _ | ldDtVx _ | ldStVx _ | addIVx _ | ldFVx _ | ldBVx _ | ldMemVx _ | ldVxMem _ =>
    simp [encode, decodePattern, decodeMisc, fieldA_wordXkk, fieldX_wordXkk, fieldKk_wordXkk]

/-- A word whose last nibble is fixed is put together from a and its registers. -/
theorem wordXyn_of_fields {op : Word} {a : Nat} {d : Nibble} (ha : a < 16) (hA : fieldA op = BitVec.ofNat 4 a)
    (hN : fieldN op = d) : wordXyn a (fieldX op) (fieldY op) d = op := by
  rw [← hN]; exact wordXyn_fields op ha hA

/-- A word whose low byte is fixed is put together from a and its register. -/
theorem wordXkk_of_fields {op : Word} {a : Nat} {cd : Byte} (ha : a < 16) (hA : fieldA op = BitVec.ofNat 4 a)
    (hK : fieldKk op = cd) : wordXkk a (fieldX op) cd = op := by
  rw [← hK]; exact wordXkk_fields op ha hA

theorem encode_of_decodeAlu {op : Word} {i : Instr} (hA : fieldA op = 0x8) (h : decodeAlu op = .ok i) :
    encode i = op ∧ i.isPattern = true := by
  unfold decodeAlu at h
  split at h <;> cases h <;> exact ⟨wordXyn_of_fields (by decide) hA ‹_›, rfl⟩

theorem encode_of_decodeKey {op : Word} {i : Instr} (hA : fieldA op = 0xE) (h : decodeKey op = .ok i) :
    encode i = op ∧ i.isPattern = true := by
  unfold decodeKey at h
  split at h <;> cases h <;> exact ⟨wordXkk_of_fields (by decide) hA ‹_›, rfl⟩

theorem encode_of_decodeMisc {op : Word} {i : Instr} (hA : fieldA op = 0xF) (h : decodeMisc op = .ok i) :
    encode i = op ∧ i.isPattern = true := by
  unfold decodeMisc at h
  split at h <;> cases h <;> exact ⟨wordXkk_of_fields (by decide) hA ‹_›, rfl⟩

/-- Every bit of a pattern's word is fixed by the row or kept in an operand. -/
theorem encode_of_decodePattern {op : Word} {i : Instr} (h : decodePattern op = .ok i) :
    encode i = op ∧ i.isPattern = true := by
  unfold decodePattern at h
  split at h
  case h_6 hA | h_10 hA =>
    split at h
    · cases h; exact ⟨wordXyn_of_fields (by decide) hA ‹_›, rfl⟩
    · cases h
  case h_9 hA => exact encode_of_decodeAlu hA h
  case h_15 hA => exact encode_of_decodeKey hA h
  case h_16 hA => exact encode_of_decodeMisc hA h
  case h_17 => cases h
  case h_14 hA => cases h; exact ⟨wordXyn_fields op (by decide) hA, rfl⟩
  case h_4 hA | h_5 hA | h_7 hA | h_8 hA | h_13 hA => cases h; exact ⟨wordXkk_fields op (by decide) hA, rfl⟩
  all_goals cases h; exact ⟨wordNnn_fields op (by decide) ‹_›, rfl⟩

/-! ### The precedence -/

theorem mem_exactWords {op : Word} : op ∈ exactWords ↔ op = 0x00E0 ∨ op = 0x00EE := by simp [exactWords]

/-- A word that is neither exact nor in `P_QUIT_OPCODES` is left to the patterns (R93). -/
theorem decodeWord_eq_decodePattern_of_notMem {quit : List Word} {op : Word} (hexact : op ∉ exactWords)
    (hquit : op ∉ quit) : decodeWord quit op = decodePattern op := by
  rw [mem_exactWords, not_or] at hexact
  have hcontains : ¬ quit.contains op = true := by rwa [List.contains_iff_mem]
  unfold decodeWord
  rw [if_neg hexact.1, if_neg hexact.2, if_neg hcontains]

/-- A member of `P_QUIT_OPCODES` that is no exact word is QUIT (R93). -/
theorem decodeWord_quit {quit : List Word} {op : Word} (hexact : op ∉ exactWords) (hquit : op ∈ quit) :
    decodeWord quit op = .ok (.quit op) := by
  rw [mem_exactWords, not_or] at hexact
  unfold decodeWord
  rw [if_neg hexact.1, if_neg hexact.2, if_pos (List.contains_iff_mem.2 hquit)]

/-- The word of a well-formed pattern is no exact word: only ill-formed SYS terms have these (R97). -/
theorem encode_notMem_exactWords {quit : List Word} {i : Instr} (hp : i.isPattern = true) (hwf : i.wf quit = true) :
    encode i ∉ exactWords := by
  have hdecode := decodePattern_encode hp
  have hcls : decodePattern 0x00E0 = .ok (.sys 0x0E0) := by decide
  have hret : decodePattern 0x00EE = .ok (.sys 0x0EE) := by decide
  rw [mem_exactWords]
  rintro (e | e)
  · rw [e, hcls] at hdecode; cases hdecode
    simp [Instr.wf, sysWord] at hwf
  · rw [e, hret] at hdecode; cases hdecode
    simp [Instr.wf, sysWord] at hwf

theorem sysWord_eq_encode (nnn : Addr) : sysWord nnn = encode (.sys nnn) := by
  have hfits : nnn.toNat < 65536 := by have := nnn.isLt; omega
  apply BitVec.eq_of_toNat_eq
  simp [sysWord, encode, wordNnn_toNat, hfits]

/-- A pattern owns its word exactly when the word is neither exact nor in `P_QUIT_OPCODES`. -/
theorem ownsWord_iff_of_isPattern {quit : List Word} {i : Instr} (hp : i.isPattern = true) :
    i.ownsWord quit = true ↔ encode i ∉ exactWords ∧ encode i ∉ quit := by
  have hnotQuit : (i == .quit (encode i)) = false := by
    rw [beq_eq_false_iff_ne]
    intro e
    rw [e] at hp; cases hp
  constructor
  · intro h
    simp only [Instr.ownsWord, hnotQuit, Bool.or_false, Bool.and_eq_true, Bool.or_eq_true, Bool.not_eq_true',
      List.contains_iff_mem, ← Bool.not_eq_true] at h
    have hexact := encode_notMem_exactWords hp h.1
    exact ⟨hexact, h.2.resolve_left hexact⟩
  · rintro ⟨hexact, hquit⟩
    have hwf : i.wf quit = true := by
      cases i with
      | cls | ret | quit _ => cases hp
      | sys nnn =>
        simp only [Instr.wf, sysWord_eq_encode, Bool.and_eq_true, Bool.not_eq_true', ← Bool.not_eq_true,
          List.contains_iff_mem]
        exact ⟨hexact, hquit⟩
      | _ => rfl
    simp [Instr.ownsWord, hwf, hquit]

theorem ownsWord_quit_iff {quit : List Word} {op : Word} :
    (Instr.quit op).ownsWord quit = true ↔ op ∉ exactWords ∧ op ∈ quit := by
  simp [Instr.ownsWord, Instr.wf, encode, and_comm]

end Sys2Proof

open Sys2Proof Sys2Proof.Machine

/-- Settles O1: an exact word, a QUIT, or a pattern, whose word is neither exact nor a member. -/
theorem decodingTheEncodingGivesTheInstruction : Obligations.DecodingTheEncodingGivesTheInstruction := by
  unfold Obligations.DecodingTheEncodingGivesTheInstruction
  intro quit i howns
  by_cases hp : i.isPattern = true
  · obtain ⟨hexact, hquit⟩ := (ownsWord_iff_of_isPattern hp).1 howns
    rw [decodeWord_eq_decodePattern_of_notMem hexact hquit, decodePattern_encode hp]
  · cases i with
    | cls | ret => rfl
    | quit op =>
      obtain ⟨hexact, hquit⟩ := ownsWord_quit_iff.1 howns
      exact decodeWord_quit hexact hquit
    | _ => exact absurd rfl hp

/-- Settles O2: along the precedence of R93, and no pattern drops a bit. -/
theorem encodingADecodedWordGivesTheWord : Obligations.EncodingADecodedWordGivesTheWord := by
  unfold Obligations.EncodingADecodedWordGivesTheWord
  intro quit op i h
  by_cases hexact : op ∈ exactWords
  · rcases mem_exactWords.1 hexact with rfl | rfl <;> cases h <;> exact ⟨rfl, rfl⟩
  by_cases hquit : op ∈ quit
  · rw [decodeWord_quit hexact hquit] at h
    cases h; exact ⟨rfl, ownsWord_quit_iff.2 ⟨hexact, hquit⟩⟩
  · rw [decodeWord_eq_decodePattern_of_notMem hexact hquit] at h
    obtain ⟨rfl, hp⟩ := encode_of_decodePattern h
    exact ⟨rfl, (ownsWord_iff_of_isPattern hp).2 ⟨hexact, hquit⟩⟩

/-- Settles O3: the three arms of `decodeWord`, and the a = 0 pattern. -/
theorem exactWordsThenQuitThenSys : Obligations.ExactWordsThenQuitThenSys := by
  unfold Obligations.ExactWordsThenQuitThenSys
  intro quit
  refine ⟨rfl, rfl, fun op hcls hret => ?_⟩
  have hexact : op ∉ exactWords := by rw [mem_exactWords, not_or]; exact ⟨hcls, hret⟩
  refine ⟨decodeWord_quit hexact, fun hquit hlt => ?_⟩
  have ha : fieldA op = 0 := BitVec.eq_of_toNat_eq (by rw [fieldA_toNat, Nat.div_eq_of_lt hlt]; rfl)
  rw [decodeWord_eq_decodePattern_of_notMem hexact hquit, decodePattern, ha, ← fieldNnn]
  rfl

/-- Settles O6, by running the decoder on each of the ten words. -/
theorem exampleWordsDecode : Obligations.ExampleWordsDecode := by
  unfold Obligations.ExampleWordsDecode
  decide

end

section
/-! PROOFS. The rows of the opcode table (R95) and the words that match none (R96). -/

namespace Sys2Proof

/-! ### Fields that are fixed, as numbers -/

theorem fieldA_eq_iff {op : Word} {a : Nibble} : fieldA op = a ↔ op.toNat / 0x1000 = a.toNat := by
  rw [← BitVec.toNat_inj, fieldA_toNat]
theorem fieldN_eq_iff {op : Word} {n : Nibble} : fieldN op = n ↔ op.toNat % 0x10 = n.toNat := by
  rw [← BitVec.toNat_inj, fieldN_toNat]
theorem fieldKk_eq_iff {op : Word} {kk : Byte} : fieldKk op = kk ↔ op.toNat % 0x100 = kk.toNat := by
  rw [← BitVec.toNat_inj, fieldKk_toNat]

/-! ### A word that matches a row has the row's fixed fields -/

theorem fields_of_matches_F000 {c op : Word} (h : OpRow.matches ⟨c, 0xF000⟩ op = true) : fieldA op = fieldA c := by
  simp only [OpRow.matches, beq_iff_eq] at h
  exact fieldA_of_and_F000 h

theorem fields_of_matches_F00F {c op : Word} (h : OpRow.matches ⟨c, 0xF00F⟩ op = true) :
    fieldA op = fieldA c ∧ fieldN op = fieldN c := by
  simp only [OpRow.matches, beq_iff_eq] at h
  have hmask := and_F00F op
  rw [h] at hmask
  rw [fieldA_eq_iff, fieldN_eq_iff, fieldA_toNat, fieldN_toNat]
  omega

theorem fields_of_matches_F0FF {c op : Word} (h : OpRow.matches ⟨c, 0xF0FF⟩ op = true) :
    fieldA op = fieldA c ∧ fieldKk op = fieldKk c := by
  simp only [OpRow.matches, beq_iff_eq] at h
  have hmask := and_F0FF op
  rw [h] at hmask
  rw [fieldA_eq_iff, fieldKk_eq_iff, fieldA_toNat, fieldKk_toNat]
  omega

/-! ### The table -/

theorem row_mem_patternRows {i : Instr} (h : i.isTabled = true) : i.row ∈ patternRows := by
  cases i with
  | cls | ret | quit _ | sys _ => cases h
  | _ => simp [patternRows, Instr.row]

theorem exists_row_of_mem_patternRows {r : OpRow} (h : r ∈ patternRows) :
    ∃ i : Instr, i.isTabled = true ∧ i.row = r := by
  simp only [patternRows, ← List.map_append, List.mem_map] at h
  obtain ⟨i, hi, rfl⟩ := h
  refine ⟨i, ?_, rfl⟩
  revert i
  decide

/-- The encoder and the table agree (the family MatchesRow). -/
theorem row_matches_encode (i : Instr) : i.row.matches (encode i) = true := by
  cases i with
  | sys nnn => exact Laws.MatchesRow.sys nnn
  | cls => exact Laws.MatchesRow.cls
  | ret => exact Laws.MatchesRow.ret
  | quit op => exact Laws.MatchesRow.quit op
  | jp nnn => exact Laws.MatchesRow.jp nnn
  | call nnn => exact Laws.MatchesRow.call nnn
  | seVxKk x kk => exact Laws.MatchesRow.seVxKk x kk
  | sneVxKk x kk => exact Laws.MatchesRow.sneVxKk x kk
  | seVxVy x y => exact Laws.MatchesRow.seVxVy x y
  | ldVxKk x kk => exact Laws.MatchesRow.ldVxKk x kk
  | addVxKk x kk => exact Laws.MatchesRow.addVxKk x kk
  | ldVxVy x y => exact Laws.MatchesRow.ldVxVy x y
  | orVxVy x y => exact Laws.MatchesRow.orVxVy x y
  | andVxVy x y => exact Laws.MatchesRow.andVxVy x y
  | xorVxVy x y => exact Laws.MatchesRow.xorVxVy x y
  | addVxVy x y => exact Laws.MatchesRow.addVxVy x y
  | subVxVy x y => exact Laws.MatchesRow.subVxVy x y
  | shrVx x y => exact Laws.MatchesRow.shrVx x y
  | subnVxVy x y => exact Laws.MatchesRow.subnVxVy x y
  | shlVx x y => exact Laws.MatchesRow.shlVx x y
  | sneVxVy x y => exact Laws.MatchesRow.sneVxVy x y
  | ldI nnn => exact Laws.MatchesRow.ldI nnn
  | jpV0 nnn => exact Laws.MatchesRow.jpV0 nnn
  | rndVxKk x kk => exact Laws.MatchesRow.rndVxKk x kk
  | drw x y n => exact Laws.MatchesRow.drw x y n
  | skpVx x => exact Laws.MatchesRow.skpVx x
  | sknpVx x => exact Laws.MatchesRow.sknpVx x
  | ldVxDt x => exact Laws.MatchesRow.ldVxDt x
  | ldVxK x => exact Laws.MatchesRow.ldVxK x
  | ldDtVx x => exact Laws.MatchesRow.ldDtVx x
  | ldStVx x => exact Laws.MatchesRow.ldStVx x
  | addIVx x => exact Laws.MatchesRow.addIVx x
  | ldFVx x => exact Laws.MatchesRow.ldFVx x
  | ldBVx x => exact Laws.MatchesRow.ldBVx x
  | ldMemVx x => exact Laws.MatchesRow.ldMemVx x
  | ldVxMem x => exact Laws.MatchesRow.ldVxMem x

/-- A word with the fixed fields of a row is decoded, whatever stands in its other fields. -/
theorem decodes_of_row_matches {i : Instr} (hi : i.isTabled = true) {op : Word} (h : i.row.matches op = true) :
    ∃ j, decodePattern op = .ok j := by
  unfold decodePattern
  cases i with
  | cls | ret | quit _ | sys _ => cases hi
  | jp _ | call _ | seVxKk _ _ | sneVxKk _ _ | ldVxKk _ _ | addVxKk _ _ | ldI _ | jpV0 _ | rndVxKk _ _ | drw _ _ _ =>
    rw [fields_of_matches_F000 h]; exact ⟨_, rfl⟩
  | seVxVy _ _ | sneVxVy _ _ =>
    obtain ⟨hA, hN⟩ := fields_of_matches_F00F h
    rw [hA, hN]; exact ⟨_, rfl⟩
  | ldVxVy _ _ | orVxVy _ _ | andVxVy _ _ | xorVxVy _ _ | addVxVy _ _ | subVxVy _ _ | shrVx _ _ | subnVxVy _ _
  | shlVx _ _ =>
    obtain ⟨hA, hN⟩ := fields_of_matches_F00F h
    unfold decodeAlu
    rw [hA, hN]; exact ⟨_, rfl⟩
  | skpVx _ | sknpVx _ =>
    obtain ⟨hA, hK⟩ := fields_of_matches_F0FF h
    unfold decodeKey
    rw [hA, hK]; exact ⟨_, rfl⟩
  | ldVxDt _ | ldVxK _ | ldDtVx _ | ldStVx _ | addIVx _ | ldFVx _ | ldBVx _ | ldMemVx _ | ldVxMem _ =>
    obtain ⟨hA, hK⟩ := fields_of_matches_F0FF h
    unfold decodeMisc
    rw [hA, hK]; exact ⟨_, rfl⟩

/-- Two rows of the table that agree where both fix a bit are the same row. -/
theorem patternRows_separated : ∀ r ∈ patternRows, ∀ r' ∈ patternRows,
    r.fixed &&& r'.mask = r'.fixed &&& r.mask → r = r' := by decide

/-- "no two rows match the same word" (R95). -/
theorem row_unique {r r' : OpRow} (hr : r ∈ patternRows) (hr' : r' ∈ patternRows) {op : Word}
    (h : r.matches op = true) (h' : r'.matches op = true) : r = r' := by
  simp only [OpRow.matches, beq_iff_eq] at h h'
  apply patternRows_separated r hr r' hr'
  rw [← h, ← h', BitVec.and_assoc, BitVec.and_assoc, BitVec.and_comm r.mask]

/-! ### The words that match no row -/

theorem decodeAlu_error_iff {op : Word} : decodeAlu op = .error (.unimplementedOpcode op) ↔
    op.toNat % 0x10 ∈ [0x8, 0x9, 0xA, 0xB, 0xC, 0xD, 0xF] := by
  unfold decodeAlu
  split
  case h_10 => simp_all [fieldN_eq_iff]; omega
  all_goals simp_all [fieldN_eq_iff]

theorem decodeKey_error_iff {op : Word} : decodeKey op = .error (.unimplementedOpcode op) ↔
    op.toNat % 0x100 ∉ [0x9E, 0xA1] := by
  unfold decodeKey
  split <;> simp_all [fieldKk_eq_iff]

theorem decodeMisc_error_iff {op : Word} : decodeMisc op = .error (.unimplementedOpcode op) ↔
    op.toNat % 0x100 ∉ [0x07, 0x0A, 0x15, 0x18, 0x1E, 0x29, 0x33, 0x55, 0x65] := by
  unfold decodeMisc
  split <;> simp_all [fieldKk_eq_iff]

/-- The five classes of R96, of a word that no precedence takes from the patterns. -/
theorem decodePattern_error_iff {op : Word} : decodePattern op = .error (.unimplementedOpcode op) ↔
    (op.toNat / 0x1000 = 0x5 ∧ op.toNat % 0x10 ≠ 0) ∨
    (op.toNat / 0x1000 = 0x8 ∧ op.toNat % 0x10 ∈ [0x8, 0x9, 0xA, 0xB, 0xC, 0xD, 0xF]) ∨
    (op.toNat / 0x1000 = 0x9 ∧ op.toNat % 0x10 ≠ 0) ∨
    (op.toNat / 0x1000 = 0xE ∧ op.toNat % 0x100 ∉ [0x9E, 0xA1]) ∨
    (op.toNat / 0x1000 = 0xF ∧ op.toNat % 0x100 ∉ [0x07, 0x0A, 0x15, 0x18, 0x1E, 0x29, 0x33, 0x55, 0x65]) := by
  have hlt := op.isLt
  unfold decodePattern
  split
  case h_6 hA | h_10 hA => rw [fieldA_eq_iff] at hA; simp [hA, fieldN_eq_iff]
  case h_9 hA => rw [fieldA_eq_iff] at hA; rw [decodeAlu_error_iff]; simp [hA]
  case h_15 hA => rw [fieldA_eq_iff] at hA; rw [decodeKey_error_iff]; simp [hA]
  case h_16 hA => rw [fieldA_eq_iff] at hA; rw [decodeMisc_error_iff]; simp [hA]
  case h_17 => simp only [imp_false, fieldA_eq_iff, BitVec.toNat_ofNat] at *; omega
  all_goals rename_i hA; rw [fieldA_eq_iff] at hA; simp [hA]

end Sys2Proof

open Sys2Proof Sys2Proof.Machine

/-- Settles O4: a decoded word is the word of its instruction, which matches that instruction's row; a word with a row's
fixed fields is decoded; and two rows differ in a bit that both fix. -/
theorem decodingFollowsTheRowsOfTheTable : Obligations.DecodingFollowsTheRowsOfTheTable := by
  unfold Obligations.DecodingFollowsTheRowsOfTheTable
  intro quit op hcls hret hquit
  have hexact : op ∉ exactWords := by rw [mem_exactWords, not_or]; exact ⟨hcls, hret⟩
  rw [decodeWord_eq_decodePattern_of_notMem hexact hquit]
  have hmatches : ∀ i, decodePattern op = .ok i → i.row.matches op = true := by
    intro i h
    obtain ⟨rfl, -⟩ := encode_of_decodePattern h
    exact row_matches_encode i
  refine ⟨hmatches, ⟨?_, ?_⟩, fun r hr r' hr' => row_unique hr hr'⟩
  · rintro ⟨i, h⟩
    obtain ⟨e, hp⟩ := encode_of_decodePattern h
    rcases isTabled_or_sys hp with ht | ⟨nnn, rfl⟩
    · exact .inr ⟨i.row, row_mem_patternRows ht, hmatches i h⟩
    · have := nnn.isLt
      left; rw [← e, encode, wordNnn_toNat (by decide)]; omega
  · rintro (hlt | ⟨r, hr, hm⟩)
    · have ha : fieldA op = 0 := fieldA_eq_iff.2 (Nat.div_eq_of_lt hlt)
      exact ⟨.sys (fieldNnn op), by rw [decodePattern, ha]; rfl⟩
    · obtain ⟨i, ht, rfl⟩ := exists_row_of_mem_patternRows hr
      exact decodes_of_row_matches ht hm

/-- Settles O5: the exact words are in none of the five classes, and the patterns are `decodePattern_error_iff`. -/
theorem unimplementedWordsAreFiveClasses : Obligations.UnimplementedWordsAreFiveClasses := by
  unfold Obligations.UnimplementedWordsAreFiveClasses
  intro quit op hquit
  by_cases hexact : op ∈ exactWords
  · rcases mem_exactWords.1 hexact with rfl | rfl <;> simp [decodeWord]
  · rw [decodeWord_eq_decodePattern_of_notMem hexact hquit, decodePattern_error_iff]

end

section
/-! PROOFS. Said once for the rules of the whole machine (10_state.md): the fields that an instruction's effect can
write, and the three ways a step can end. -/

namespace Sys2Proof.Machine

section fields

variable (s : State)

/-! ### The state in which an instruction executes -/

/-- The state `exec` is entered with: the step's samples are on the ports, and PC is a0 + 2 (40_engine.md R121). -/
def State.entered (keys : Keys) (rand : Byte) : State := { s.takeSample keys rand with pc := s.pc + 2 }

section entered

variable (keys : Keys) (rand : Byte)

@[simp] theorem entered_mem : (s.entered keys rand).mem = s.mem := takeSample_mem s keys rand
@[simp] theorem entered_stack : (s.entered keys rand).stack = s.stack := takeSample_stack s keys rand
@[simp] theorem entered_sp : (s.entered keys rand).sp = s.sp := takeSample_sp s keys rand
@[simp] theorem entered_dt : (s.entered keys rand).dt = s.dt := takeSample_dt s keys rand
@[simp] theorem entered_st : (s.entered keys rand).st = s.st := takeSample_st s keys rand
@[simp] theorem entered_fb : (s.entered keys rand).fb = s.fb := takeSample_fb s keys rand
@[simp] theorem entered_run : (s.entered keys rand).run = s.run := takeSample_run s keys rand
@[simp] theorem entered_params : (s.entered keys rand).params = s.params := takeSample_params s keys rand
@[simp] theorem entered_pc : (s.entered keys rand).pc = s.pc + 2 := rfl
@[simp] theorem entered_present : (s.entered keys rand).present = false := takeSample_present s keys rand

end entered

/-! ### Operations of several writes: the fields that none of them writes -/

@[simp] theorem pokes_v (a : Nat) (bs : List Byte) : (s.pokes a bs).v = s.v := by rw [pokes_only_mem]
@[simp] theorem pokes_i (a : Nat) (bs : List Byte) : (s.pokes a bs).i = s.i := by rw [pokes_only_mem]
@[simp] theorem pokes_pc (a : Nat) (bs : List Byte) : (s.pokes a bs).pc = s.pc := by rw [pokes_only_mem]
@[simp] theorem pokes_stack (a : Nat) (bs : List Byte) : (s.pokes a bs).stack = s.stack := by rw [pokes_only_mem]
@[simp] theorem pokes_sp (a : Nat) (bs : List Byte) : (s.pokes a bs).sp = s.sp := by rw [pokes_only_mem]
@[simp] theorem pokes_dt (a : Nat) (bs : List Byte) : (s.pokes a bs).dt = s.dt := by rw [pokes_only_mem]
@[simp] theorem pokes_st (a : Nat) (bs : List Byte) : (s.pokes a bs).st = s.st := by rw [pokes_only_mem]
@[simp] theorem pokes_fb (a : Nat) (bs : List Byte) : (s.pokes a bs).fb = s.fb := by rw [pokes_only_mem]
@[simp] theorem pokes_run (a : Nat) (bs : List Byte) : (s.pokes a bs).run = s.run := by rw [pokes_only_mem]
@[simp] theorem pokes_keyIn (a : Nat) (bs : List Byte) : (s.pokes a bs).keyIn = s.keyIn := by rw [pokes_only_mem]
@[simp] theorem pokes_randIn (a : Nat) (bs : List Byte) : (s.pokes a bs).randIn = s.randIn := by rw [pokes_only_mem]
@[simp] theorem pokes_present (a : Nat) (bs : List Byte) : (s.pokes a bs).present = s.present := by rw [pokes_only_mem]

@[simp] theorem logicFlag_i : s.logicFlag.i = s.i := by rw [logicFlag_only_v]
@[simp] theorem logicFlag_pc : s.logicFlag.pc = s.pc := by rw [logicFlag_only_v]
@[simp] theorem logicFlag_stack : s.logicFlag.stack = s.stack := by rw [logicFlag_only_v]
@[simp] theorem logicFlag_sp : s.logicFlag.sp = s.sp := by rw [logicFlag_only_v]
@[simp] theorem logicFlag_dt : s.logicFlag.dt = s.dt := by rw [logicFlag_only_v]
@[simp] theorem logicFlag_st : s.logicFlag.st = s.st := by rw [logicFlag_only_v]
@[simp] theorem logicFlag_fb : s.logicFlag.fb = s.fb := by rw [logicFlag_only_v]
@[simp] theorem logicFlag_params : s.logicFlag.params = s.params := by rw [logicFlag_only_v]
@[simp] theorem logicFlag_present : s.logicFlag.present = s.present := by rw [logicFlag_only_v]
@[simp] theorem logicFlag_mem : s.logicFlag.mem = s.mem := by rw [logicFlag_only_v]

@[simp] theorem loadRegs_i (n : Nat) : (s.loadRegs n).i = s.i := by rw [loadRegs_only_v]
@[simp] theorem loadRegs_pc (n : Nat) : (s.loadRegs n).pc = s.pc := by rw [loadRegs_only_v]
@[simp] theorem loadRegs_stack (n : Nat) : (s.loadRegs n).stack = s.stack := by rw [loadRegs_only_v]
@[simp] theorem loadRegs_sp (n : Nat) : (s.loadRegs n).sp = s.sp := by rw [loadRegs_only_v]
@[simp] theorem loadRegs_dt (n : Nat) : (s.loadRegs n).dt = s.dt := by rw [loadRegs_only_v]
@[simp] theorem loadRegs_st (n : Nat) : (s.loadRegs n).st = s.st := by rw [loadRegs_only_v]
@[simp] theorem loadRegs_fb (n : Nat) : (s.loadRegs n).fb = s.fb := by rw [loadRegs_only_v]
@[simp] theorem loadRegs_run (n : Nat) : (s.loadRegs n).run = s.run := by rw [loadRegs_only_v]
@[simp] theorem loadRegs_params (n : Nat) : (s.loadRegs n).params = s.params := by rw [loadRegs_only_v]
@[simp] theorem loadRegs_keyIn (n : Nat) : (s.loadRegs n).keyIn = s.keyIn := by rw [loadRegs_only_v]
@[simp] theorem loadRegs_randIn (n : Nat) : (s.loadRegs n).randIn = s.randIn := by rw [loadRegs_only_v]
@[simp] theorem loadRegs_present (n : Nat) : (s.loadRegs n).present = s.present := by rw [loadRegs_only_v]
@[simp] theorem loadRegs_mem (n : Nat) : (s.loadRegs n).mem = s.mem := by rw [loadRegs_only_v]

@[simp] theorem keyWait_i (x : Reg) : (s.keyWait x).i = s.i := by rw [keyWait_only]
@[simp] theorem keyWait_pc (x : Reg) : (s.keyWait x).pc = s.pc := by rw [keyWait_only]
@[simp] theorem keyWait_stack (x : Reg) : (s.keyWait x).stack = s.stack := by rw [keyWait_only]
@[simp] theorem keyWait_sp (x : Reg) : (s.keyWait x).sp = s.sp := by rw [keyWait_only]
@[simp] theorem keyWait_dt (x : Reg) : (s.keyWait x).dt = s.dt := by rw [keyWait_only]
@[simp] theorem keyWait_st (x : Reg) : (s.keyWait x).st = s.st := by rw [keyWait_only]
@[simp] theorem keyWait_fb (x : Reg) : (s.keyWait x).fb = s.fb := by rw [keyWait_only]
@[simp] theorem keyWait_params (x : Reg) : (s.keyWait x).params = s.params := by rw [keyWait_only]
@[simp] theorem keyWait_present (x : Reg) : (s.keyWait x).present = s.present := by rw [keyWait_only]
@[simp] theorem keyWait_mem (x : Reg) : (s.keyWait x).mem = s.mem := by rw [keyWait_only]

@[simp] theorem keyPoll_pc (r : Reg) : (s.keyPoll r).pc = s.pc := by rw [keyPoll_only]
@[simp] theorem keyPoll_stack (r : Reg) : (s.keyPoll r).stack = s.stack := by rw [keyPoll_only]
@[simp] theorem keyPoll_sp (r : Reg) : (s.keyPoll r).sp = s.sp := by rw [keyPoll_only]
@[simp] theorem keyPoll_params (r : Reg) : (s.keyPoll r).params = s.params := by rw [keyPoll_only]
@[simp] theorem keyPoll_mem (r : Reg) : (s.keyPoll r).mem = s.mem := by rw [keyPoll_only]

@[simp] theorem tick_pc : s.tick.pc = s.pc := by rw [tick_only_timers]
@[simp] theorem tick_stack : s.tick.stack = s.stack := by rw [tick_only_timers]
@[simp] theorem tick_sp : s.tick.sp = s.sp := by rw [tick_only_timers]
@[simp] theorem tick_fb : s.tick.fb = s.fb := by rw [tick_only_timers]
@[simp] theorem tick_run : s.tick.run = s.run := by rw [tick_only_timers]
@[simp] theorem tick_params : s.tick.params = s.params := by rw [tick_only_timers]
@[simp] theorem tick_present : s.tick.present = s.present := by rw [tick_only_timers]
@[simp] theorem tick_mem : s.tick.mem = s.mem := by rw [tick_only_timers]

end fields

/-! ### Effects: the writers of each field -/

variable {s t : State} {i : Instr}

theorem pc_writer_of_effect_ne (h : (effect s i).pc ≠ s.pc) :
    i = .ret ∨ (∃ nnn, i = .jp nnn ∨ i = .call nnn ∨ i = .jpV0 nnn) ∨
      (∃ x kk, i = .seVxKk x kk ∨ i = .sneVxKk x kk) ∨ (∃ x y, i = .seVxVy x y ∨ i = .sneVxVy x y) ∨
      ∃ x, i = .skpVx x ∨ i = .sknpVx x := by
  cases i with
  | ret | jp _ | call _ | jpV0 _ | seVxKk _ _ | sneVxKk _ _ | seVxVy _ _ | sneVxVy _ _ | skpVx _ | sknpVx _ => simp
  | _ => exact absurd (by simp [effect, State.setRegFlag]) h

theorem i_writer_of_effect_ne (h : (effect s i).i ≠ s.i) :
    (∃ nnn, i = .ldI nnn) ∨ ∃ x, i = .addIVx x ∨ i = .ldFVx x ∨
      (s.params.ldstIncrementsI = true ∧ (i = .ldMemVx x ∨ i = .ldVxMem x)) := by
  cases i with
  | ldI _ | addIVx _ | ldFVx _ => simp
  | ldMemVx _ | ldVxMem _ =>
    by_cases hp : s.params.ldstIncrementsI = true
    · simp [hp]
    · exact absurd (by simp [effect, State.advanceI, pokes_params, hp]) h
  | _ => exact absurd (by simp [effect, State.setRegFlag]) h

theorem dt_writer_of_effect_ne (h : (effect s i).dt ≠ s.dt) : ∃ x, i = .ldDtVx x := by
  cases i with
  | ldDtVx x => exact ⟨x, rfl⟩
  | _ => exact absurd (by simp [effect, State.setRegFlag]) h

theorem st_writer_of_effect_ne (h : (effect s i).st ≠ s.st) : ∃ x, i = .ldStVx x := by
  cases i with
  | ldStVx x => exact ⟨x, rfl⟩
  | _ => exact absurd (by simp [effect, State.setRegFlag]) h

theorem fb_writer_of_effect_ne (h : (effect s i).fb ≠ s.fb) : i = .cls ∨ ∃ x y n, i = .drw x y n := by
  cases i with
  | cls | drw _ _ _ => simp
  | _ => exact absurd (by simp [effect, State.setRegFlag]) h

theorem mem_writer_of_effect_ne (h : (effect s i).mem ≠ s.mem) : ∃ x, i = .ldBVx x ∨ i = .ldMemVx x := by
  cases i with
  | ldBVx x | ldMemVx x => exact ⟨x, by simp⟩
  | _ => exact absurd (by simp [effect, State.setRegFlag]) h

theorem stack_writer_of_effect_ne (h : (effect s i).stack ≠ s.stack) : ∃ nnn, i = .call nnn := by
  cases i with
  | call nnn => exact ⟨nnn, rfl⟩
  | _ => exact absurd (by simp [effect, State.setRegFlag]) h

theorem sp_writer_of_effect_ne (h : (effect s i).sp ≠ s.sp) : i = .ret ∨ ∃ nnn, i = .call nnn := by
  cases i with
  | ret | call _ => simp
  | _ => exact absurd (by simp [effect, State.setRegFlag]) h

theorem present_writer_of_effect_ne (h : (effect s i).present ≠ s.present) : ∃ x y n, i = .drw x y n := by
  cases i with
  | drw x y n => exact ⟨x, y, n, rfl⟩
  | _ => exact absurd (by simp [effect, State.setRegFlag]) h

@[simp] theorem effect_params (s : State) (i : Instr) : (effect s i).params = s.params := by
  cases i with
  | _ => simp [effect, State.setRegFlag, pokes_params]

/-- R22's list: an effect writes its destination, and VF where it is a flag. -/
theorem effect_reg_of_notMem {r : Reg} (h : r ∉ regsWritten s.params i) : (effect s i).reg r = s.reg r := by
  cases i with
  | ldVxKk x _ | addVxKk x _ | ldVxVy x _ | rndVxKk x _ | ldVxDt x =>
    exact reg_setReg_ne s _ (List.ne_of_not_mem_cons h)
  | ldVxK x =>
    simp only [effect, State.keyWait]
    split
    · exact reg_setReg_ne s _ (List.ne_of_not_mem_cons h)
    · rfl
  | orVxVy x _ | andVxVy x _ | xorVxVy x _ =>
    simp only [effect, logicFlag_reg, setReg_params]
    by_cases hp : s.params.logicResetsVf = true
    · simp only [regsWritten, hp, if_true, List.mem_cons, List.not_mem_nil, or_false, not_or] at h
      simp [h.1, h.2]
    · simp only [regsWritten, hp, Bool.false_eq_true, if_false, List.mem_singleton] at h
      simp [h, hp]
  | addVxVy x _ | subVxVy x _ | shrVx x _ | subnVxVy x _ | shlVx x _ =>
    simp only [regsWritten, List.mem_cons, List.not_mem_nil, or_false, not_or] at h
    simp only [effect, setRegFlag_reg, h.1, h.2, if_false]
  | drw x y n => exact reg_setReg_ne s _ (List.ne_of_not_mem_cons h)
  | ldVxMem x =>
    simp only [regsWritten, List.mem_filter, List.mem_finRange, true_and, decide_eq_true_eq, Fin.le_def] at h
    have hr : ¬ r.val < x.val + 1 := by omega
    have hv : ((s.loadRegs (x.val + 1)).advanceI x).reg r = (s.loadRegs (x.val + 1)).reg r := rfl
    rw [effect, hv, loadRegs_reg s _ (by omega), if_neg hr]
  | _ => exact reg_congr (by simp [effect]) r

/-- No effect halts the core. -/
theorem effect_run_ne_halted (hrun : s.run = .running) (h : HaltRecord) : (effect s i).run ≠ .halted h := by
  rcases effect_run s i with e | ⟨r, e⟩
  · rw [e, hrun]; nofun
  · rw [e]; nofun

/-! ### Steps -/

/-- The instruction a state is about to execute is the one at PC. -/
theorem about_unique {j : Instr} (hi : s.About i) (hj : s.About j) : i = j := by
  obtain ⟨-, -, -, hi⟩ := hi
  obtain ⟨-, -, -, hj⟩ := hj
  rw [hi] at hj
  exact Except.ok.inj hj

theorem not_about_of_tick (hn : s.nextInput = .tick) : ¬ s.About i := by
  rintro ⟨-, hengine, -, -⟩
  obtain ⟨keys, rand, he⟩ := (engineNext_iff s).1 hengine
  rw [hn] at he; cases he

/-- A step is a tick, or it leaves all but V, PC, Run and the ports (a halt, or a poll), or it is an instruction whose
own check passes. -/
theorem step_effect_cases (h : step s = .next t) :
    (s.nextInput = .tick ∧ t = s.useInput.tick) ∨
    (((∃ e, t.run = .halted e) ∨ ∃ r, s.run = .blocked r) ∧
      t = { s with v := t.v, pc := t.pc, run := t.run, inputs := t.inputs, draws := t.draws, keyIn := t.keyIn,
                   randIn := t.randIn, present := false }) ∨
    ∃ keys rand i, s.About i ∧ ownFault (s.entered keys rand) i = none ∧
      t = effect (s.entered keys rand) i := by
  obtain ⟨-, ⟨hn, e⟩ | ⟨-, rfl⟩ | ⟨keys, rand, -,
    ⟨r, hr, rfl⟩ | ⟨-, -, rfl⟩ | ⟨-, -, op, rfl⟩ | ⟨i, ha, hx⟩⟩⟩ := step_cases h
  · exact .inl ⟨hn, e⟩
  · refine .inr (.inl ⟨.inl ⟨_, rfl⟩, ?_⟩)
    rw [useInput_only_store]; rfl
  · refine .inr (.inl ⟨.inr ⟨r, hr⟩, ?_⟩)
    rw [keyPoll_only, takeSample_only_ports]
  · refine .inr (.inl ⟨.inl ⟨_, rfl⟩, ?_⟩)
    rw [takeSample_only_ports]; rfl
  · refine .inr (.inl ⟨.inl ⟨_, rfl⟩, ?_⟩)
    rw [takeSample_only_ports]; rfl
  · rcases exec_cases hx with ⟨e, -, rfl⟩ | ⟨hown, rfl⟩
    · refine .inr (.inl ⟨.inl ⟨_, rfl⟩, ?_⟩)
      rw [takeSample_only_ports]; rfl
    · exact .inr (.inr ⟨keys, rand, i, ha, hown, rfl⟩)

/-- Counting a timer down leaves it, or lowers it by one from above zero. -/
theorem countDown_cases (b : Byte) : countDown b = b ∨ (0 < b.toNat ∧ (countDown b).toNat = b.toNat - 1) := by
  by_cases h0 : b = 0
  · subst h0; exact .inl rfl
  · refine .inr ⟨Nat.pos_of_ne_zero fun h => h0 (BitVec.eq_of_toNat_eq h), countDown_toNat b⟩

end Sys2Proof.Machine

open Sys2Proof Sys2Proof.Machine

/-- Settles O20: of the three ways a step ends, only an effect reaches FB. -/
theorem framebufferChangesOnlyByDrawAndClear : Obligations.FramebufferChangesOnlyByDrawAndClear := by
  unfold Obligations.FramebufferChangesOnlyByDrawAndClear
  intro s t h hne
  rcases step_effect_cases h with ⟨-, rfl⟩ | ⟨-, e⟩ | ⟨keys, rand, i, ha, -, rfl⟩
  · exact absurd (by simp) hne
  · exact absurd (by rw [e]) hne
  · rcases fb_writer_of_effect_ne (s := s.entered keys rand) (by simpa using hne) with rfl | ⟨x, y, n, rfl⟩
    · exact .inl ha
    · exact .inr ⟨x, y, n, ha⟩

/-- Settles O21: a byte that reads differently means a different memory, since no step changes the font. -/
theorem memoryChangesOnlyByTheTwoStores : Obligations.MemoryChangesOnlyByTheTwoStores := by
  unfold Obligations.MemoryChangesOnlyByTheTwoStores
  intro s t h hne
  rcases step_effect_cases h with ⟨-, rfl⟩ | ⟨-, e⟩ | ⟨keys, rand, i, ha, -, rfl⟩
  · exact absurd (peek_congr (by simp) (by simp)) hne
  · exact absurd (peek_congr (by rw [e]) (by rw [e])) hne
  · have hmem : (effect (s.entered keys rand) i).mem ≠ (s.entered keys rand).mem :=
      fun e => hne (peek_congr (by simpa using e) (by simp))
    obtain ⟨x, rfl | rfl⟩ := mem_writer_of_effect_ne hmem
    · exact ⟨x, .inl ha⟩
    · exact ⟨x, .inr ha⟩

/-- Settles O22: of the three ways a step ends, only an effect reaches the stack. -/
theorem stackChangesOnlyByCallAndReturn : Obligations.StackChangesOnlyByCallAndReturn := by
  unfold Obligations.StackChangesOnlyByCallAndReturn
  intro s t h
  rcases step_effect_cases h with ⟨-, rfl⟩ | ⟨-, e⟩ | ⟨keys, rand, i, ha, -, rfl⟩
  · exact ⟨absurd (by simp), absurd (by simp)⟩
  · exact ⟨absurd (by rw [e]), absurd (by rw [e])⟩
  · refine ⟨fun hne => ?_, fun hne => ?_⟩
    · obtain ⟨nnn, rfl⟩ := stack_writer_of_effect_ne (s := s.entered keys rand) (by simpa using hne)
      exact ⟨nnn, ha⟩
    · rcases sp_writer_of_effect_ne (s := s.entered keys rand) (by simpa using hne) with rfl | ⟨nnn, rfl⟩
      · exact .inl ha
      · exact .inr ⟨nnn, ha⟩

/-- Settles O23: a fault writes no register, and an effect those of `regsWritten`. -/
theorem registersChangeOnlyAsDestinationOrFlag : Obligations.RegistersChangeOnlyAsDestinationOrFlag := by
  unfold Obligations.RegistersChangeOnlyAsDestinationOrFlag
  intro i s t h r hr
  rcases exec_cases h with ⟨e, -, rfl⟩ | ⟨-, rfl⟩
  · rfl
  · exact effect_reg_of_notMem hr

/-- Settles O24: a fault writes PC and Run alone, and an effect's writers are listed field by field. -/
theorem specialRegistersChangeOnlyByTheirWriters : Obligations.SpecialRegistersChangeOnlyByTheirWriters := by
  unfold Obligations.SpecialRegistersChangeOnlyByTheirWriters
  refine ⟨fun i s t h => ?_, fun s t h => ?_⟩
  · rcases exec_cases h with ⟨e, -, rfl⟩ | ⟨-, rfl⟩
    · exact ⟨absurd rfl, absurd rfl, absurd rfl, fun _ => .inl ⟨_, rfl⟩⟩
    · exact ⟨i_writer_of_effect_ne, dt_writer_of_effect_ne, st_writer_of_effect_ne,
        fun hne => .inr (pc_writer_of_effect_ne hne)⟩
  · rcases step_effect_cases h with ⟨-, rfl⟩ | ⟨-, e⟩ | ⟨keys, rand, i, -, -, rfl⟩
    · simp
    · rw [e]
    · simp

/-- Settles O26: the strobe is over when a step begins, and of the effects only a draw raises it; a draw that faults
halts the core. -/
theorem presentIsRaisedExactlyByDraws : Obligations.PresentIsRaisedExactlyByDraws := by
  unfold Obligations.PresentIsRaisedExactlyByDraws
  intro s t h
  rcases step_effect_cases h with ⟨hn, rfl⟩ | ⟨hend, e⟩ | ⟨keys, rand, i, ha, -, rfl⟩
  · exact ⟨fun hp => absurd hp (by simp), fun ⟨⟨_, _, _, ha⟩, _⟩ => absurd ha (not_about_of_tick hn)⟩
  · refine ⟨fun hp => absurd hp (by rw [e]; simp), fun ⟨⟨_, _, _, ha⟩, hrun⟩ => ?_⟩
    obtain ⟨hrunning, -, -, -⟩ := ha
    rcases hend with ⟨r, hr⟩ | ⟨r, hr⟩
    · exact absurd hr (hrun r)
    · rw [hrunning] at hr; cases hr
  · refine ⟨fun hp => ⟨?_, ?_⟩, fun ⟨⟨_, _, _, ha'⟩, _⟩ => ?_⟩
    · obtain ⟨x, y, n, rfl⟩ := present_writer_of_effect_ne (by rw [hp]; simp)
      exact ⟨x, y, n, ha⟩
    · obtain ⟨hrunning, -, -, -⟩ := ha
      exact effect_run_ne_halted (by simpa using hrunning)
    · rw [about_unique ha ha']; rfl

/-- Settles O25: a poll and a halt leave the timers, an effect loads one, and an enabled tick counts each down. -/
theorem timersRiseOnlyWhenLoaded : Obligations.TimersRiseOnlyWhenLoaded := by
  unfold Obligations.TimersRiseOnlyWhenLoaded
  intro s t h
  rcases step_effect_cases h with ⟨hn, rfl⟩ | ⟨-, e⟩ | ⟨keys, rand, i, ha, -, rfl⟩
  · by_cases hen : s.useInput.tickEnabled = true
    · rw [tick_of_enabled hen, useInput_dt, useInput_st]
      exact ⟨.inr ((countDown_cases s.dt).imp_right (⟨hn, ·⟩)), .inr ((countDown_cases s.st).imp_right (⟨hn, ·⟩))⟩
    · rw [State.tick, if_neg hen]
      exact ⟨.inr (.inl (useInput_dt s)), .inr (.inl (useInput_st s))⟩
  · exact ⟨.inr (.inl (by rw [e])), .inr (.inl (by rw [e]))⟩
  · refine ⟨?_, ?_⟩
    · by_cases hne : (effect (s.entered keys rand) i).dt = s.dt
      · exact .inr (.inl hne)
      · obtain ⟨x, rfl⟩ := dt_writer_of_effect_ne (s := s.entered keys rand) (by simpa using hne)
        exact .inl ⟨x, ha⟩
    · by_cases hne : (effect (s.entered keys rand) i).st = s.st
      · exact .inr (.inl hne)
      · obtain ⟨x, rfl⟩ := st_writer_of_effect_ne (s := s.entered keys rand) (by simpa using hne)
        exact .inl ⟨x, ha⟩

end

section
/-! PROOFS. What an instruction does not read (10_state.md R35, R40, R41): the dead stack slots, the key sample and the
random byte. -/

namespace Sys2Proof

/-- The instructions that use the stack (10_state.md R25). -/
def Instr.usesStack : Instr → Bool
  | .ret | .call _ => true
  | _ => false

/-- The instructions that read the key sample (10_state.md R40). -/
def Instr.readsKeys : Instr → Bool
  | .skpVx _ | .sknpVx _ | .ldVxK _ => true
  | _ => false

/-- The instruction that reads the random byte (10_state.md R41). -/
def Instr.readsRand : Instr → Bool
  | .rndVxKk _ _ => true
  | _ => false

end Sys2Proof

namespace Sys2Proof.Machine

variable {f : Vector Word 16 → Vector Word 16} {g : Keys → Keys} {k : Byte → Byte}

/-- `s` with other stack slots and other samples. -/
def State.mapUnread (f : Vector Word 16 → Vector Word 16) (g : Keys → Keys) (k : Byte → Byte) (s : State) : State :=
  { s with stack := f s.stack, keyIn := g s.keyIn, randIn := k s.randIn }

theorem pokes_mapUnread (bs : List Byte) : ∀ (s : State) (a : Nat),
    (s.mapUnread f g k).pokes a bs = (s.pokes a bs).mapUnread f g k := by
  induction bs with
  | nil => intro s a; rfl
  | cons b bs ih => intro s a; exact ih (s.poke a b) (a + 1)

theorem loadRegs_mapUnread (s : State) (n : Nat) :
    (s.mapUnread f g k).loadRegs n = (s.loadRegs n).mapUnread f g k := by
  induction n with
  | zero => rfl
  | succ n ih => rw [State.loadRegs, ih]; rfl

theorem logicFlag_mapUnread (s : State) : (s.mapUnread f g k).logicFlag = s.logicFlag.mapUnread f g k := by
  have hparams : (s.mapUnread f g k).params = s.params := rfl
  unfold State.logicFlag
  rw [hparams]
  split <;> rfl

theorem keyWait_mapUnread (s : State) (x : Reg) :
    (s.mapUnread f id k).keyWait x = (s.keyWait x).mapUnread f id k := by
  have hkeys : (s.mapUnread f id k).keyIn = s.keyIn := rfl
  unfold State.keyWait
  rw [hkeys]
  cases lowestKey s.keyIn <;> rfl

theorem keyPoll_mapUnread (s : State) (r : Reg) :
    (s.mapUnread f id k).keyPoll r = (s.keyPoll r).mapUnread f id k := by
  have hkeys : (s.mapUnread f id k).keyIn = s.keyIn := rfl
  unfold State.keyPoll
  rw [hkeys]
  cases lowestKey s.keyIn <;> rfl

/-- No check looks at these fields. -/
theorem ownFault_mapUnread (s : State) (i : Instr) : ownFault (s.mapUnread f g k) i = ownFault s i := rfl

/-- An effect is the same whatever stands in the fields that the instruction does not read. -/
theorem effect_mapUnread (s : State) {i : Instr} (hf : i.usesStack = true → f = id) (hg : i.readsKeys = true → g = id)
    (hk : i.readsRand = true → k = id) : effect (s.mapUnread f g k) i = (effect s i).mapUnread f g k := by
  cases i with
  | ret | call _ => obtain rfl := hf rfl; rfl
  | skpVx _ | sknpVx _ => obtain rfl := hg rfl; rfl
  | ldVxK x => obtain rfl := hg rfl; exact keyWait_mapUnread s x
  | rndVxKk _ _ => obtain rfl := hk rfl; rfl
  | orVxVy x y => exact logicFlag_mapUnread (s.setReg x (s.reg x ||| s.reg y))
  | andVxVy x y => exact logicFlag_mapUnread (s.setReg x (s.reg x &&& s.reg y))
  | xorVxVy x y => exact logicFlag_mapUnread (s.setReg x (s.reg x ^^^ s.reg y))
  | ldBVx x => exact pokes_mapUnread _ s _
  | ldMemVx x => exact congrArg (·.advanceI x) (pokes_mapUnread (s.regsUpTo x) s (s.effAddr 0))
  | ldVxMem x => exact congrArg (·.advanceI x) (loadRegs_mapUnread s (x.val + 1))
  | _ => rfl

/-- A RET whose check passes has a slot to pop. -/
theorem sp_ne_zero_of_ret {s : State} (hown : ownFault s .ret = none) : s.sp.val ≠ 0 :=
  fun e => by simp [ownFault, Fin.ext_iff, e] at hown

/-- A CALL whose check passes has a slot to push into. -/
theorem sp_ne_16_of_call {s : State} {nnn : Addr} (hown : ownFault s (.call nnn) = none) : s.sp.val ≠ 16 :=
  fun e => by simp [ownFault, Fin.ext_iff, e] at hown

theorem effect_stack_of_not_usesStack {s : State} {i : Instr} (hi : ¬ i.usesStack = true) :
    (effect s i).stack = s.stack := by
  by_contra hne
  obtain ⟨nnn, rfl⟩ := stack_writer_of_effect_ne hne
  exact hi rfl

theorem effect_sp_of_not_usesStack {s : State} {i : Instr} (hi : ¬ i.usesStack = true) :
    (effect s i).sp = s.sp := by
  by_contra hne
  rcases sp_writer_of_effect_ne hne with rfl | ⟨nnn, rfl⟩ <;> exact hi rfl

theorem exec_mapUnread {s t : State} {i : Instr} (hf : i.usesStack = true → f = id) (hg : i.readsKeys = true → g = id)
    (hk : i.readsRand = true → k = id) (h : exec i s = .next t) :
    exec i (s.mapUnread f g k) = .next (t.mapUnread f g k) := by
  rw [exec_eq, ownFault_mapUnread]
  rcases exec_cases h with ⟨e, hown, rfl⟩ | ⟨hown, rfl⟩
  · rw [hown]; rfl
  · rw [hown, ← effect_mapUnread s hf hg hk]

theorem exec_next (i : Instr) (s : State) : ∃ t, exec i s = .next t := ⟨_, exec_eq i s⟩

/-! ### The stack slots at SP and above -/

variable {s s' : State}

/-- Two states that differ in dead slots are one state with two stacks. -/
theorem sameButDeadSlots_iff : SameButDeadSlots s s' ↔ ∃ σ : Vector Word 16,
    s' = s.mapUnread (fun _ => σ) id id ∧ ∀ j : Fin 16, j.val < s.sp.val → σ[j] = s.stack[j] :=
  ⟨fun ⟨e, h⟩ => ⟨s'.stack, e, h⟩, fun ⟨σ, e, h⟩ => by subst e; exact ⟨rfl, h⟩⟩

/-- What does not look at the stack, and leaves SP, leaves a difference in dead slots. -/
theorem sameButDeadSlots_map {φ : State → State} (hφ : ∀ u σ, φ (u.mapUnread (fun _ => σ) id id) =
    (φ u).mapUnread (fun _ => σ) id id) (hsp : ∀ u, (φ u).sp = u.sp) (h : SameButDeadSlots s s') :
    SameButDeadSlots (φ s) (φ s') := by
  obtain ⟨σ, rfl, hlive⟩ := sameButDeadSlots_iff.1 h
  have hstack : (φ s).stack = s.stack := by
    change (φ (s.mapUnread (fun _ => s.stack) id id)).stack = s.stack
    rw [hφ]; rfl
  refine sameButDeadSlots_iff.2 ⟨σ, hφ s σ, fun j hj => ?_⟩
  rw [hstack]
  exact hlive j (hsp s ▸ hj)

theorem useInput_sameButDeadSlots (h : SameButDeadSlots s s') : SameButDeadSlots s.useInput s'.useInput := by
  refine sameButDeadSlots_map (φ := State.useInput) (fun u σ => ?_) useInput_sp h
  have hinputs : (u.mapUnread (fun _ => σ) id id).inputs = u.inputs := rfl
  unfold State.useInput
  rw [hinputs]
  cases u.inputs <;> rfl

theorem tick_sameButDeadSlots (h : SameButDeadSlots s s') : SameButDeadSlots s.tick s'.tick := by
  refine sameButDeadSlots_map (φ := State.tick) (fun u σ => ?_) tick_sp h
  have henabled : (u.mapUnread (fun _ => σ) id id).tickEnabled = u.tickEnabled := rfl
  unfold State.tick
  rw [henabled]
  split <;> rfl

theorem takeSample_sameButDeadSlots (keys : Keys) (rand : Byte) (h : SameButDeadSlots s s') :
    SameButDeadSlots (s.takeSample keys rand) (s'.takeSample keys rand) :=
  sameButDeadSlots_map (φ := fun u => { u with keyIn := keys, randIn := rand }) (fun _ _ => rfl) (fun _ => rfl)
    (useInput_sameButDeadSlots h)

/-- The stack instructions read live slots only: RET the one below SP, and CALL none, the one it makes live being
written in both states. -/
theorem effect_sameButDeadSlots {i : Instr} (hown : ownFault s i = none) (h : SameButDeadSlots s s') :
    SameButDeadSlots (effect s i) (effect s' i) := by
  obtain ⟨σ, rfl, hlive⟩ := sameButDeadSlots_iff.1 h
  have hspLt := s.sp.isLt
  by_cases hi : i.usesStack = true
  · cases i with
    | ret =>
      have hsp := sp_ne_zero_of_ret hown
      have hslot := hlive ⟨(s.sp.val - 1) % 16, Nat.mod_lt _ (by decide)⟩ (by simp only; omega)
      refine sameButDeadSlots_iff.2 ⟨σ, ?_, fun j hj => hlive j (Nat.lt_of_lt_of_le hj (Nat.sub_le _ _))⟩
      exact congrArg (fun pc' => { s with pc := pc', sp := ⟨s.sp.val - 1, by omega⟩, stack := σ }) hslot
    | call nnn =>
      have hsp := sp_ne_16_of_call hown
      refine sameButDeadSlots_iff.2 ⟨_, rfl, fun j hj => ?_⟩
      have hj' : j.val < (s.sp.val + 1) % 17 := hj
      change (σ.set (s.sp.val % 16) s.pc (Nat.mod_lt _ (by decide)))[j] =
        (s.stack.set (s.sp.val % 16) s.pc (Nat.mod_lt _ (by decide)))[j]
      simp only [Fin.getElem_fin, Vector.getElem_set]
      split
      · rfl
      · exact hlive j (by omega)
    | _ => cases hi
  · refine sameButDeadSlots_iff.2 ⟨σ, effect_mapUnread s (fun e => absurd e hi) (fun _ => rfl) (fun _ => rfl), ?_⟩
    rwa [effect_stack_of_not_usesStack hi, effect_sp_of_not_usesStack hi]

theorem exec_sameButDeadSlots (i : Instr) (h : SameButDeadSlots s s') :
    ∃ t t', exec i s = .next t ∧ exec i s' = .next t' ∧ SameButDeadSlots t t' := by
  have hown' : ownFault s' i = ownFault s i := by
    obtain ⟨σ, rfl, -⟩ := sameButDeadSlots_iff.1 h
    rfl
  refine ⟨_, _, exec_eq i s, exec_eq i s', ?_⟩
  rw [hown']
  cases hown : ownFault s i with
  | some e => exact sameButDeadSlots_map (φ := raise e (encode i)) (fun _ _ => rfl) (fun _ => rfl) h
  | none => exact effect_sameButDeadSlots hown h

theorem engineStep_blocked {r : Reg} (hr : s.run = .blocked r) : engineStep s = .next (s.keyPoll r) := by
  unfold engineStep; rw [hr]

theorem engineStep_sameButDeadSlots (hr : ∀ e, s.run ≠ .halted e) (h : SameButDeadSlots s s') :
    ∃ t t', engineStep s = .next t ∧ engineStep s' = .next t' ∧ SameButDeadSlots t t' := by
  have hfields : s'.run = s.run ∧ s'.pc = s.pc ∧ s'.params = s.params ∧ s'.peek = s.peek := by
    obtain ⟨σ, rfl, -⟩ := sameButDeadSlots_iff.1 h
    exact ⟨rfl, rfl, rfl, rfl⟩
  obtain ⟨hrun, hpc, hparams, hpeek⟩ := hfields
  cases hs : s.run with
  | halted e => exact absurd hs (hr e)
  | blocked r =>
    exact ⟨_, _, engineStep_blocked hs, engineStep_blocked (hrun.trans hs),
      sameButDeadSlots_map (φ := (·.keyPoll r)) (fun u _ => keyPoll_mapUnread u r) (fun u => keyPoll_sp u r) h⟩
  | running =>
    have hs' := hrun.trans hs
    by_cases hp : s.pc.toNat + 1 ≤ 0xFFF
    · rw [engineStep_running s hs hp, engineStep_running s' hs' (hpc ▸ hp), hpc, hparams, hpeek]
      have hentry : SameButDeadSlots { s with pc := s.pc + 2 } { s' with pc := s.pc + 2 } :=
        sameButDeadSlots_map (φ := fun u => { u with pc := s.pc + 2 }) (fun _ _ => rfl) (fun _ => rfl) h
      rw [hparams] at hentry
      split
      · exact exec_sameButDeadSlots _ hentry
      · exact ⟨_, _, rfl, rfl,
          sameButDeadSlots_map (φ := raise .unimplementedOpcode _) (fun _ _ => rfl) (fun _ => rfl) hentry⟩
    · have hp' : 0xFFF < s.pc.toNat + 1 := by omega
      rw [engineStep_beyond s hs hp', engineStep_beyond s' hs' (hpc ▸ hp'), hpc]
      exact ⟨_, _, rfl, rfl,
        sameButDeadSlots_map (φ := takeFault (.outOfBoundsAccess .fetch) s.pc none) (fun _ _ => rfl) (fun _ => rfl) h⟩

theorem step_halted {e : HaltRecord} (hr : s.run = .halted e) : step s = .fault (.noStepEnabled e) := by
  unfold step; rw [hr]

end Sys2Proof.Machine

open Sys2Proof Sys2Proof.Machine

/-- Settles O28: whose turn it is does not depend on the stack, and neither does what a tick, a cancel or a poll does;
an instruction is `exec_sameButDeadSlots`. -/
theorem deadStackSlotsAreUnobservable : Obligations.DeadStackSlotsAreUnobservable := by
  unfold Obligations.DeadStackSlotsAreUnobservable
  intro s s' h
  have hfields : s'.run = s.run ∧ s'.nextInput = s.nextInput := by
    obtain ⟨σ, rfl, -⟩ := sameButDeadSlots_iff.1 h
    exact ⟨rfl, rfl⟩
  obtain ⟨hrun, hnext⟩ := hfields
  by_cases hhalted : ∃ e, s.run = .halted e
  · obtain ⟨e, he⟩ := hhalted
    exact .inr ⟨_, step_halted he, step_halted (hrun.trans he)⟩
  · have hr : ∀ e, s.run ≠ .halted e := fun e he => hhalted ⟨e, he⟩
    have hr' : ∀ e, s'.run ≠ .halted e := hrun ▸ hr
    left
    cases hn : s.nextInput with
    | tick =>
      exact ⟨_, _, step_tick hn hr, step_tick (hnext.trans hn) hr', tick_sameButDeadSlots (useInput_sameButDeadSlots h)⟩
    | cancel =>
      exact ⟨_, _, step_cancel hn hr, step_cancel (hnext.trans hn) hr',
        sameButDeadSlots_map (φ := State.cancel) (fun _ _ => rfl) (fun _ => rfl) (useInput_sameButDeadSlots h)⟩
    | engine keys rand =>
      rw [step_engine hn hr, step_engine (hnext.trans hn) hr']
      exact engineStep_sameButDeadSlots (by simpa using hr) (takeSample_sameButDeadSlots keys rand h)

/-- Settles O27: the readers of the two samples are listed by `readsKeys` and `readsRand`, and every other effect
commutes with a change of the sample. -/
theorem samplesMatterOnlyToTheirReaders : Obligations.SamplesMatterOnlyToTheirReaders := by
  unfold Obligations.SamplesMatterOnlyToTheirReaders
  intro i s keys rand
  obtain ⟨t, ht⟩ := exec_next i s
  refine ⟨fun hi => ⟨t, ht, ?_⟩, fun hi => ⟨t, ht, ?_⟩⟩
  · have hreads : ¬ i.readsKeys = true := by
      cases i with
      | skpVx x | sknpVx x | ldVxK x => simpa using hi x
      | _ => exact Bool.false_ne_true
    exact exec_mapUnread (f := id) (g := fun _ => keys) (k := id) (fun _ => rfl) (fun e => absurd e hreads)
      (fun _ => rfl) ht
  · have hreads : ¬ i.readsRand = true := by
      cases i with
      | rndVxKk x kk => exact absurd rfl (hi x kk)
      | _ => exact Bool.false_ne_true
    exact exec_mapUnread (f := id) (g := id) (k := fun _ => rand) (fun _ => rfl) (fun _ => rfl)
      (fun e => absurd e hreads) ht

end

section
/-! PROOFS. The invariant of the machine (10_state.md R24, R25; 20_memory.md R60; 60_exceptions.md R280, R285), and the
faults that keep it. -/

namespace Sys2Proof.Machine

variable {s t : State} {i : Instr}

/-! ### Faults -/

/-- The reasons an instruction's own check can give are recorded with the address and the word. -/
theorem ownFault_recorded {e : HaltReason} (h : ownFault s i = some e) (a0 op : Word) :
    HaltRecord.Recorded ⟨e, some a0, some op⟩ := by
  cases i with
  | quit _ => cases h; exact ⟨rfl, rfl⟩
  | ret | call _ | drw _ _ _ | ldBVx _ | ldMemVx _ | ldVxMem _ | skpVx _ | sknpVx _ =>
    simp only [ownFault, Option.ite_none_right_eq_some, Option.some.injEq] at h
    obtain ⟨-, rfl⟩ := h
    exact ⟨rfl, rfl⟩
  | _ => cases h

/-- An instruction whose own check fails takes the precise fault (R285). -/
theorem exec_faultsWith {e : HaltReason} (h : ownFault s i = some e) :
    ∃ t, exec i s = .next t ∧ FaultsWith e i s t :=
  ⟨raise e (encode i) s, by rw [exec_eq, h], rfl, fun _ _ => rfl, fun _ => rfl⟩

/-- An instruction whose own check passes has its effect. -/
theorem exec_of_passes (h : ownFault s i = none) : exec i s = .next (effect s i) := by rw [exec_eq, h]

/-- A fault of an instruction goes back to the address the step began with. -/
theorem raise_entered (s : State) (keys : Keys) (rand : Byte) (e : HaltReason) (op : Word) :
    raise e op (s.entered keys rand) = takeFault e s.pc (some op) (s.takeSample keys rand) := by
  have ha0 : (s.entered keys rand).pc - 2 = s.pc := BitVec.add_sub_cancel s.pc 2
  rw [raise, ha0]; rfl

/-- The engine step whose word is an instruction runs it. -/
theorem engineStep_of_ok (keys : Keys) (rand : Byte) (hrun : s.run = .running) (hp : s.pc.toNat + 1 ≤ 0xFFF)
    (hd : decodeWord s.params.quitOpcodes (wordOfBytes (s.peek s.pc.toNat) (s.peek (s.pc.toNat + 1))) = .ok i) :
    engineStep (s.takeSample keys rand) = exec i (s.entered keys rand) := by
  have hd' : decodeWord (s.takeSample keys rand).params.quitOpcodes
      (wordOfBytes ((s.takeSample keys rand).peek (s.takeSample keys rand).pc.toNat)
        ((s.takeSample keys rand).peek ((s.takeSample keys rand).pc.toNat + 1))) = .ok i := by
    simpa using hd
  rw [engineStep_running _ (by simpa using hrun) (by simpa using hp), hd', takeSample_pc]
  rfl

/-- The engine step whose word is no instruction faults at PC. -/
theorem engineStep_of_error (keys : Keys) (rand : Byte) (hrun : s.run = .running) (hp : s.pc.toNat + 1 ≤ 0xFFF)
    {op : Word} {e : DecodeError} (hop : wordOfBytes (s.peek s.pc.toNat) (s.peek (s.pc.toNat + 1)) = op)
    (hd : decodeWord s.params.quitOpcodes op = .error e) : engineStep (s.takeSample keys rand) =
      .next (takeFault .unimplementedOpcode s.pc (some op) (s.takeSample keys rand)) := by
  have hop' : wordOfBytes ((s.takeSample keys rand).peek (s.takeSample keys rand).pc.toNat)
      ((s.takeSample keys rand).peek ((s.takeSample keys rand).pc.toNat + 1)) = op := by simpa using hop
  have hd' : decodeWord (s.takeSample keys rand).params.quitOpcodes op = .error e := by simpa using hd
  rw [engineStep_running _ (by simpa using hrun) (by simpa using hp), hop', hd', takeSample_pc]
  exact congrArg Host.Outcome.next (raise_entered s keys rand .unimplementedOpcode op)

/-- An engine step from RUNNING faults, at its own address and with the record of R280, or runs an instruction whose own
check passes. -/
theorem engine_step_cases (hrun : s.run = .running) (hn : s.engineNext = true) (h : step s = .next t) :
    ∃ keys rand, s.nextInput = .engine keys rand ∧
      ((∃ e op, HaltRecord.Recorded ⟨e, some s.pc, op⟩ ∧ t = takeFault e s.pc op (s.takeSample keys rand)) ∨
       ∃ i, s.About i ∧ ownFault (s.entered keys rand) i = none ∧ t = effect (s.entered keys rand) i) := by
  obtain ⟨keys, rand, hnext⟩ := (engineNext_iff s).1 hn
  refine ⟨keys, rand, hnext, ?_⟩
  obtain ⟨-, ⟨hn', -⟩ | ⟨hn', -⟩ | ⟨keys', rand', hn', hcases⟩⟩ := step_cases h
  · rw [hnext] at hn'; cases hn'
  · rw [hnext] at hn'; cases hn'
  · rw [hnext] at hn'; cases hn'
    rcases hcases with ⟨r, hr, -⟩ | ⟨-, -, rfl⟩ | ⟨-, -, op, rfl⟩ | ⟨i, ha, hx⟩
    · rw [hrun] at hr; cases hr
    · exact .inl ⟨.outOfBoundsAccess .fetch, none, ⟨rfl, rfl⟩, rfl⟩
    · exact .inl ⟨.unimplementedOpcode, some op, ⟨rfl, rfl⟩, raise_entered s keys rand _ op⟩
    · rcases exec_cases hx with ⟨e, hown, rfl⟩ | ⟨hown, rfl⟩
      · exact .inl ⟨e, _, ownFault_recorded hown _ _, raise_entered s keys rand e _⟩
      · exact .inr ⟨i, ha, hown, rfl⟩

/-- A fault of an engine step changes nothing but Run, the ports and what the host has in store (R285). -/
theorem onlyHalted_takeFault (s : State) (keys : Keys) (rand : Byte) (e : HaltReason) (op : Option Word) :
    OnlyHalted ⟨e, some s.pc, op⟩ s (takeFault e s.pc op (s.takeSample keys rand)) :=
  ⟨by rw [takeSample_only_ports]; rfl, fun r _ => reg_congr (by simp) r, peek_congr (by simp) (by simp)⟩

/-- An image that does not fit halts the core, and nothing else of the reset state is written. -/
theorem load_of_too_long {p : Params} {inputs : List Input} {rom : List Byte} (hlong : 3584 < rom.length) :
    State.load p inputs rom =
      { State.reset with params := p, inputs := inputs, run := .halted ⟨.loadError, none, none⟩ } :=
  if_neg (Nat.not_le.2 hlong)

/-- No step of the engine is refused. -/
theorem engineStep_next (hr : ∀ h, s.run ≠ .halted h) : ∃ t, engineStep s = .next t := by
  cases hs : s.run with
  | halted h => exact absurd hs (hr h)
  | blocked r => exact ⟨_, engineStep_blocked hs⟩
  | running =>
    by_cases hp : s.pc.toNat + 1 ≤ 0xFFF
    · rw [engineStep_running s hs hp]
      split
      · exact exec_next _ _
      · exact ⟨_, rfl⟩
    · exact ⟨_, engineStep_beyond s hs (by omega)⟩

/-! ### The invariant, clause by clause -/

theorem regsUpTo_length (s : State) (x : Reg) : (s.regsUpTo x).length = x.val + 1 := by
  simp only [State.regsUpTo, List.length_take, Vector.length_toList]
  omega

/-- The invariant speaks of memory, PC, the occupied slots and Run alone. -/
theorem inv_of_unwritten (hs : s.Inv) (hmem : t.mem = s.mem) (hparams : t.params = s.params)
    (hstack : t.stack = s.stack) (hsp : t.sp = s.sp) (hpc : t.pc.toNat ≤ pcMax s.params)
    (hrun : ∀ h, t.run = .halted h → h.Recorded ∧ ∀ a, h.addr = some a → t.pc = a) : t.Inv := by
  obtain ⟨hwf, -, hslots, -⟩ := hs
  exact ⟨by rwa [hmem, hparams], by rwa [hparams], by rwa [hstack, hsp], hrun⟩

theorem inv_takeFault (hs : s.Inv) {e : HaltReason} {op : Option Word}
    (hrec : HaltRecord.Recorded ⟨e, some s.pc, op⟩) : (takeFault e s.pc op s).Inv := by
  obtain ⟨-, hpc, -, -⟩ := id hs
  refine inv_of_unwritten hs rfl rfl rfl rfl hpc ?_
  rintro h ⟨⟩
  exact ⟨hrec, fun a ha => Option.some.inj ha⟩

theorem inv_useInput (hs : s.Inv) : s.useInput.Inv := by
  obtain ⟨-, hpc, -, hhalt⟩ := id hs
  exact inv_of_unwritten hs (by simp) (by simp) (by simp) (by simp) (by simpa using hpc) (by simpa using hhalt)

theorem inv_takeSample (hs : s.Inv) (keys : Keys) (rand : Byte) : (s.takeSample keys rand).Inv := inv_useInput hs

theorem inv_tick (hs : s.Inv) : s.tick.Inv := by
  obtain ⟨-, hpc, -, hhalt⟩ := id hs
  exact inv_of_unwritten hs (by simp) (by simp) (by simp) (by simp) (by simpa using hpc) (by simpa using hhalt)

theorem inv_cancel (hs : s.Inv) : s.cancel.Inv := by
  obtain ⟨-, hpc, -, -⟩ := id hs
  refine inv_of_unwritten hs rfl rfl rfl rfl hpc ?_
  rintro h ⟨⟩
  exact ⟨⟨rfl, rfl⟩, nofun⟩

theorem inv_keyPoll (hs : s.Inv) {r : Reg} (hr : s.run = .blocked r) : (s.keyPoll r).Inv := by
  obtain ⟨-, hpc, -, -⟩ := id hs
  have hrun : ∀ h, (s.keyPoll r).run ≠ .halted h := by
    unfold State.keyPoll
    split
    · nofun
    · rw [hr]; nofun
  exact inv_of_unwritten hs (by simp) (by simp) (by simp) (by simp) (by simpa using hpc)
    (fun h hh => absurd hh (hrun h))

/-- The bound that R24 gives without the parameter. -/
theorem le_pcMax (p : Params) : 0x1002 ≤ pcMax p := by
  unfold pcMax; split <;> omega

/-- R24: a fetch inside memory leaves PC at most 0x1000, a skip adds 2, and a jump goes to 0xFFF at most, or 0x10FE. -/
theorem effect_pc_le (hs : s.Inv) (hpc : s.pc.toNat ≤ 0x1000) (hown : ownFault s i = none) :
    (effect s i).pc.toNat ≤ pcMax s.params := by
  have hmax := le_pcMax s.params
  have hskip : ∀ c, (s.skipIf c).pc.toNat ≤ pcMax s.params := by
    intro c
    have htwo : (s.pc + 2).toNat ≤ 0x1002 := by bv_omega
    rw [skipIf_pc]
    split <;> omega
  have hzext : ∀ nnn, (zext nnn).toNat ≤ pcMax s.params := by
    intro nnn; rw [zext_toNat]; have := nnn.isLt; omega
  obtain ⟨-, -, hslots, -⟩ := hs
  by_cases hne : (effect s i).pc = s.pc
  · rw [hne]; omega
  rcases pc_writer_of_effect_ne hne with rfl | ⟨nnn, rfl | rfl | rfl⟩ | ⟨x, kk, rfl | rfl⟩ | ⟨x, y, rfl | rfl⟩ |
    ⟨x, rfl | rfl⟩
  · have hsp := sp_ne_zero_of_ret hown
    have hlt := s.sp.isLt
    exact Nat.le_trans (hslots ⟨(s.sp.val - 1) % 16, Nat.mod_lt _ (by decide)⟩ (by simp only; omega)) (by omega)
  · exact hzext nnn
  · exact hzext nnn
  · simp only [effect, jpV0Target]
    split
    · rename_i hadds
      have hnnn := nnn.isLt
      have hv0 := (s.reg 0).isLt
      rw [pcMax, if_pos hadds, BitVec.toNat_add, zext_toNat, BitVec.toNat_setWidth]
      omega
    · exact hzext nnn
  all_goals exact hskip _

/-- The stack instructions: CALL pushes PC, and RET occupies one slot less. -/
theorem effect_slots_le (hs : s.Inv) (hpc : s.pc.toNat ≤ 0x1000) (hown : ownFault s i = none) (k : Fin 16)
    (hk : k.val < (effect s i).sp.val) : (effect s i).stack[k].toNat ≤ 0x1000 := by
  obtain ⟨-, -, hslots, -⟩ := hs
  have hspLt := s.sp.isLt
  by_cases hi : i.usesStack = true
  · cases i with
    | ret => exact hslots k (Nat.lt_of_lt_of_le hk (Nat.sub_le _ _))
    | call nnn =>
      have hsp := sp_ne_16_of_call hown
      have hk' : k.val < (s.sp.val + 1) % 17 := hk
      simp only [effect, Fin.getElem_fin, Vector.getElem_set]
      split
      · exact hpc
      · exact hslots k (by omega)
    | _ => cases hi
  · rw [effect_stack_of_not_usesStack hi]
    rw [effect_sp_of_not_usesStack hi] at hk
    exact hslots k hk

/-- The two stores check their last address before they write (R200). -/
theorem effect_mem_wf (hs : s.Inv) (hown : ownFault s i = none) :
    Memory.wf (effect s i).params.font (effect s i).mem := by
  obtain ⟨hwf, -, -, -⟩ := hs
  by_cases hne : (effect s i).mem = s.mem
  · rwa [hne, effect_params]
  obtain ⟨x, rfl | rfl⟩ := mem_writer_of_effect_ne hne
  · refine wf_pokes _ s _ (inMemory_iff.2 ?_) hwf
    simp only [ownFault, ite_eq_right_iff, reduceCtorEq, imp_false, Nat.not_lt] at hown
    simp only [State.effAddr, bcdDigits, List.length_cons, List.length_nil]
    omega
  · refine wf_pokes _ s _ (inMemory_iff.2 ?_) hwf
    simp only [ownFault, ite_eq_right_iff, reduceCtorEq, imp_false, Nat.not_lt] at hown
    rw [regsUpTo_length]
    unfold State.effAddr
    omega

/-- An effect keeps the invariant of a state that has just fetched. -/
theorem inv_effect (hs : s.Inv) (hrun : s.run = .running) (hpc : s.pc.toNat ≤ 0x1000) (hown : ownFault s i = none) :
    (effect s i).Inv :=
  ⟨effect_mem_wf hs hown, by rw [effect_params]; exact effect_pc_le hs hpc hown, effect_slots_le hs hpc hown,
    fun h hh => absurd hh (effect_run_ne_halted hrun h)⟩

/-- A fetch inside memory keeps the invariant, with PC at most 0x1000. -/
theorem inv_entered (hs : s.Inv) (hrun : s.run = .running) (hpc : s.pc.toNat + 1 ≤ 0xFFF) (keys : Keys) (rand : Byte) :
    (s.entered keys rand).Inv ∧ (s.entered keys rand).pc.toNat ≤ 0x1000 := by
  have hle : (s.entered keys rand).pc.toNat ≤ 0x1000 := by
    rw [entered_pc]; bv_omega
  have hmax := le_pcMax s.params
  refine ⟨inv_of_unwritten hs (by simp) (by simp) (by simp) (by simp) (by omega) (fun h hh => ?_), hle⟩
  rw [entered_run, hrun] at hh
  cases hh

end Sys2Proof.Machine

open Sys2Proof Sys2Proof.Machine

/-- Settles O29: each agent's step keeps the invariant, and an effect keeps it from the state it is entered in. -/
theorem stepKeepsTheInvariant : Obligations.StepKeepsTheInvariant := by
  unfold Obligations.StepKeepsTheInvariant
  intro s t hs h
  obtain ⟨-, ⟨-, rfl⟩ | ⟨-, rfl⟩ | ⟨keys, rand, hn, hengine⟩⟩ := step_cases h
  · exact inv_tick (inv_useInput hs)
  · exact inv_cancel (inv_useInput hs)
  by_cases hrun : s.run = .running
  · have hnext : s.engineNext = true := (engineNext_iff s).2 ⟨_, _, hn⟩
    obtain ⟨keys, rand, -, ⟨e, op, hrec, rfl⟩ | ⟨i, ha, hown, rfl⟩⟩ := engine_step_cases hrun hnext h
    · rw [← takeSample_pc s keys rand] at hrec ⊢
      exact inv_takeFault (inv_takeSample hs keys rand) hrec
    · obtain ⟨-, -, hpc, -⟩ := ha
      obtain ⟨hinv, hle⟩ := inv_entered hs hrun hpc keys rand
      exact inv_effect hinv (by simpa using hrun) hle hown
  · rcases hengine with ⟨r, hr, rfl⟩ | ⟨hr, -⟩ | ⟨hr, -⟩ | ⟨i, ⟨hr, -⟩, -⟩
    · exact inv_keyPoll (inv_takeSample hs keys rand) (by simpa using hr)
    all_goals exact absurd hr hrun

/-- Settles O30: nothing is listed in memory, no slot is occupied, and the core is RUNNING. -/
theorem resetMeetsTheInvariant : Obligations.ResetMeetsTheInvariant := by
  unfold Obligations.ResetMeetsTheInvariant
  exact ⟨wf_nil, by decide, fun k hk => absurd hk (Nat.not_lt_zero _), fun h hh => by cases hh⟩

/-- Settles O31: an image that fits ends inside memory, and one that does not halts the core with nothing written. -/
theorem loadMeetsTheInvariant : Obligations.LoadMeetsTheInvariant := by
  unfold Obligations.LoadMeetsTheInvariant
  intro p inputs rom
  have hpc : (0x200 : Word).toNat ≤ pcMax p := Nat.le_trans (by decide) (le_pcMax p)
  by_cases hfits : rom.length ≤ 3584
  · have hlast : inMemory (0x200 + rom.length - 1) = true := inMemory_iff.2 (by omega)
    have hload := load_of_fits (p := p) (inputs := inputs) hfits
    have hwf : Memory.wf (State.load p inputs rom).params.font (State.load p inputs rom).mem := by
      rw [hload]; exact wf_pokes rom _ _ hlast wf_nil
    refine ⟨hwf, ?_, fun k hk => ?_, fun h hh => ?_⟩
    · rw [hload, pokes_pc, pokes_params]; exact hpc
    · rw [hload, pokes_sp] at hk; exact absurd hk (Nat.not_lt_zero _)
    · rw [load_run hfits] at hh; cases hh
  · rw [load_of_too_long (Nat.lt_of_not_le hfits)]
    refine ⟨wf_nil, hpc, fun k hk => absurd hk (Nat.not_lt_zero _), ?_⟩
    rintro h ⟨⟩
    exact ⟨⟨rfl, rfl⟩, nofun⟩

/-- Settles O9: the two faults before an instruction runs, each a `takeFault` at PC. -/
theorem fetchAndDecodeFaultsHalt : Obligations.FetchAndDecodeFaultsHalt := by
  unfold Obligations.FetchAndDecodeFaultsHalt
  intro s hrun hn
  obtain ⟨keys, rand, hnext⟩ := (engineNext_iff s).1 hn
  have hr : ∀ h, s.run ≠ .halted h := by rw [hrun]; nofun
  rw [step_engine hnext hr]
  refine ⟨fun hp => ⟨_, engineStep_beyond _ (by simpa using hrun) (by simpa using hp), ?_⟩,
    fun hp op hop hdecode => ⟨takeFault .unimplementedOpcode s.pc (some op) (s.takeSample keys rand), ?_,
      onlyHalted_takeFault s keys rand _ _⟩⟩
  · rw [takeSample_pc]; exact onlyHalted_takeFault s keys rand _ none
  · exact engineStep_of_error keys rand hrun hp (wordOfBytes_eq hop) hdecode

/-- Settles O12: HALTED is the first arm of `step`, and no agent's step answers anything but a next state. -/
theorem stepIsEnabledExactlyWhenNotHalted : Obligations.StepIsEnabledExactlyWhenNotHalted := by
  unfold Obligations.StepIsEnabledExactlyWhenNotHalted
  intro s
  refine ⟨fun h hh => step_halted hh, fun hr => ?_⟩
  cases hn : s.nextInput with
  | tick => exact ⟨_, step_tick hn hr⟩
  | cancel => exact ⟨_, step_cancel hn hr⟩
  | engine keys rand =>
    rw [step_engine hn hr]
    exact engineStep_next (by simpa using hr)

/-- Settles O17: a halt of the engine is a fault at PC, since no effect halts. -/
theorem faultingStepChangesOnlyRun : Obligations.FaultingStepChangesOnlyRun := by
  unfold Obligations.FaultingStepChangesOnlyRun
  intro s t h hrun hn hstep hhalt
  obtain ⟨keys, rand, -, ⟨e, op, hrec, rfl⟩ | ⟨i, -, -, rfl⟩⟩ := engine_step_cases hrun hn hstep
  · cases hhalt
    exact ⟨hrec, rfl, onlyHalted_takeFault s keys rand e op⟩
  · exact absurd hhalt (effect_run_ne_halted (by simpa using hrun) h)

/-- Settles O18: `exec` is the fault of the own check or the effect (`exec_eq`), and no effect halts. -/
theorem eachInstructionFaultsExactlyOnItsOwnCheck : Obligations.EachInstructionFaultsExactlyOnItsOwnCheck := by
  unfold Obligations.EachInstructionFaultsExactlyOnItsOwnCheck
  intro i s hrun
  refine ⟨fun e hown => exec_faultsWith hown, fun hown => ⟨_, exec_of_passes hown, effect_run_ne_halted hrun⟩⟩

end

section
/-! PROOFS. Whose turn it is (10_state.md R45, R46), what the step then does, and runs of ticks and polls
(45_timers_input.md R254, R258, R259). -/

namespace Sys2Proof.Machine

variable {s t : State}

/-! ### Keys and polls -/

theorem lowestKey_eq_some {keys : Keys} {k : Reg} (h : LowestPressed keys k) : lowestKey keys = some k := by
  obtain ⟨hk, hbelow⟩ := h
  cases hl : lowestKey keys with
  | none => rw [lowestKey_none.1 hl k] at hk; cases hk
  | some j =>
    obtain ⟨hj, hbelow'⟩ := lowestKey_some hl
    rcases lt_trichotomy j k with hlt | rfl | hlt
    · rw [hbelow j hlt] at hj; cases hj
    · rfl
    · rw [hbelow' k hlt] at hk; cases hk

theorem lowestKey_eq_none {keys : Keys} (h : NonePressed keys) : lowestKey keys = none := lowestKey_none.2 h

theorem keyPoll_pressed {k : Reg} (h : lowestKey s.keyIn = some k) (r : Reg) :
    s.keyPoll r = { s.setReg r (BitVec.ofNat 8 k.val) with run := .running } := by
  unfold State.keyPoll; rw [h]

theorem keyPoll_none (h : lowestKey s.keyIn = none) (r : Reg) : s.keyPoll r = s := by
  unfold State.keyPoll; rw [h]

/-- A key index fits in a byte. -/
theorem ofNat_key_toNat (k : Reg) : (BitVec.ofNat 8 k.val).toNat = k.val := by
  rw [BitVec.toNat_ofNat]; omega

/-- The engine's turn while BLOCKED is a poll of its sample. -/
theorem step_blocked {r : Reg} {keys : Keys} {rand : Byte} (hrun : s.run = .blocked r)
    (hn : s.nextInput = .engine keys rand) : step s = .next ((s.takeSample keys rand).keyPoll r) := by
  rw [step_engine hn (by rw [hrun]; nofun)]
  exact engineStep_blocked (by simpa using hrun)

/-- A poll with no key pressed changes nothing but the ports and what the host has in store. -/
theorem step_blocked_none {r : Reg} {keys : Keys} {rand : Byte} (hrun : s.run = .blocked r)
    (hn : s.nextInput = .engine keys rand) (hnone : NonePressed keys) : step s = .next (s.takeSample keys rand) := by
  rw [step_blocked hrun hn, keyPoll_none (lowestKey_eq_none hnone)]

/-! ### Ticks -/

theorem tick_of_disabled (h : s.tickEnabled = false) : s.tick = s := if_neg (by rw [h]; exact Bool.false_ne_true)

theorem tick_dt_toNat (h : s.tickEnabled = true) : s.tick.dt.toNat = s.dt.toNat - 1 := by
  rw [tick_of_enabled h]; exact countDown_toNat s.dt

theorem tick_st_toNat (h : s.tickEnabled = true) : s.tick.st.toNat = s.st.toNat - 1 := by
  rw [tick_of_enabled h]; exact countDown_toNat s.st

theorem tickEnabled_of_running (hrun : s.run = .running) : s.tickEnabled = true := (tickEnabled_iff s).2 (.inl hrun)

theorem tickEnabled_of_blocked {r : Reg} (hrun : s.run = .blocked r) : s.tickEnabled = s.params.ticksWhileBlocked := by
  unfold State.tickEnabled; rw [hrun]

/-! ### Runs -/

theorem steps_succ (n : Nat) (h : step s = .next t) : steps (n + 1) s = steps n t := by
  rw [steps, h]

/-- The schedule of a run of n + 1 scheduled steps: its first entry, and a schedule for the other n. -/
theorem inputs_eq_cons {n : Nat} {P : Input → Prop} (hlen : n + 1 ≤ s.inputs.length)
    (hall : ∀ e ∈ s.inputs.take (n + 1), P e) :
    ∃ e rest, s.inputs = e :: rest ∧ P e ∧ n ≤ rest.length ∧ ∀ e ∈ rest.take n, P e := by
  cases hin : s.inputs with
  | nil => rw [hin] at hlen; exact absurd hlen (Nat.not_succ_le_zero n)
  | cons e rest =>
    rw [hin, List.take_succ_cons] at hall
    rw [hin, List.length_cons] at hlen
    exact ⟨e, rest, rfl, hall e List.mem_cons_self, by omega, fun e' he' => hall e' (List.mem_cons_of_mem _ he')⟩

/-- The reason a code of R280 stands for. -/
def reasonOfCode : Nat → HaltReason
  | 1 => .loadError
  | 2 => .unimplementedOpcode
  | 3 => .quit
  | 4 => .outOfBoundsAccess .fetch
  | 5 => .outOfBoundsAccess .read
  | 6 => .outOfBoundsAccess .write
  | 7 => .outOfBoundsAccess .stackOverflow
  | 8 => .outOfBoundsAccess .stackUnderflow
  | 9 => .outOfBoundsAccess .keyIndex
  | _ => .cancelled

theorem reasonOfCode_code (e : HaltReason) : reasonOfCode e.code = e := by
  cases e with
  | outOfBoundsAccess kind => cases kind <;> rfl
  | loadError | unimplementedOpcode | quit | cancelled => rfl

theorem code_ne_zero (e : HaltReason) : e.code ≠ 0 := by
  cases e with
  | outOfBoundsAccess kind => cases kind <;> decide
  | loadError | unimplementedOpcode | quit | cancelled => decide

theorem haltStatus_of_halted {h : HaltRecord} (hrun : s.run = .halted h) : s.haltStatus = h.reason.code := by
  unfold State.haltStatus; rw [hrun]

theorem haltStatus_of_not_halted (hrun : ∀ h, s.run ≠ .halted h) : s.haltStatus = 0 := by
  unfold State.haltStatus
  split
  · exact absurd ‹_› (hrun _)
  · rfl

end Sys2Proof.Machine

open Sys2Proof Sys2Proof.Machine

/-- Settles O10: a poll writes the lowest key to its register and leaves BLOCKED, or is the bare sample. -/
theorem pollTakesTheLowestPressedKey : Obligations.PollTakesTheLowestPressedKey := by
  unfold Obligations.PollTakesTheLowestPressedKey
  intro s r keys rand hrun hn
  refine ⟨fun k hk => ?_, step_blocked_none hrun hn⟩
  rw [step_blocked hrun hn, keyPoll_pressed (lowestKey_eq_some hk)]
  refine ⟨_, rfl, rfl, ?_, fun q hq => ?_, peek_takeSample s keys rand⟩
  · exact (congrArg BitVec.toNat (reg_setReg_self (s.takeSample keys rand) r _)).trans (ofNat_key_toNat k)
  · exact (reg_setReg_ne (s.takeSample keys rand) _ (List.ne_of_not_mem_cons hq)).trans (reg_congr (takeSample_v ..) q)

/-- Settles O11, by induction on the number of polls. -/
theorem blockedEngineStaysBlockedWithoutAKey : Obligations.BlockedEngineStaysBlockedWithoutAKey := by
  unfold Obligations.BlockedEngineStaysBlockedWithoutAKey
  intro n
  induction n with
  | zero => exact fun s r _ _ _ => ⟨s, rfl, rfl⟩
  | succ n ih =>
    intro s r hrun hlen hall
    obtain ⟨e, rest, hin, ⟨keys, rand, rfl, hnone⟩, hlen', hall'⟩ := inputs_eq_cons hlen hall
    have hsample : s.takeSample keys rand =
        { s with inputs := rest, keyIn := keys, randIn := rand, present := false } := by
      unfold State.takeSample; rw [useInput_cons hin]
    rw [steps_succ n (step_blocked_none hrun (nextInput_cons hin) hnone), hsample]
    obtain ⟨t, ht, e⟩ := ih { s with
      inputs := rest, keyIn := keys, randIn := rand, present := false } r hrun hlen' hall'
    refine ⟨t, ht, ?_⟩
    rw [hin, List.drop_succ_cons]
    exact e

/-- Settles O15, by induction on the number of ticks: each lowers both timers by one, floor 0. -/
theorem ticksCountDownToZeroAndStay : Obligations.TicksCountDownToZeroAndStay := by
  unfold Obligations.TicksCountDownToZeroAndStay
  intro n
  induction n with
  | zero => exact fun s _ _ _ => ⟨s, rfl, rfl, rfl, rfl⟩
  | succ n ih =>
    intro s hrun hlen hall
    obtain ⟨e, rest, hin, rfl, hlen', hall'⟩ := inputs_eq_cons hlen hall
    have htick : s.useInput.tick =
        { s with dt := countDown s.dt, st := countDown s.st, inputs := rest, present := false } := by
      rw [tick_of_enabled (tickEnabled_of_running (by simpa using hrun)), useInput_cons hin]
    rw [steps_succ n (step_tick (nextInput_cons hin) (by rw [hrun]; nofun)), htick]
    obtain ⟨t, ht, hdt, hst, e⟩ := ih { s with
      dt := countDown s.dt, st := countDown s.st, inputs := rest, present := false } hrun hlen' hall'
    rw [countDown_toNat] at hdt hst
    refine ⟨t, ht, by omega, by omega, ?_⟩
    rw [hin, List.drop_succ_cons]
    exact e

/-- Settles O7: the two bytes at PC make the word that decodes. -/
theorem stepRunsTheDecodedInstruction : Obligations.StepRunsTheDecodedInstruction := by
  unfold Obligations.StepRunsTheDecodedInstruction
  intro s op i keys rand hrun hn hp hop hdecode
  rw [step_engine hn (by rw [hrun]; nofun), engineStep_of_ok keys rand hrun hp (by rw [wordOfBytes_eq hop, hdecode])]
  rfl

/-- Settles O14: the tick of a BLOCKED core is enabled by the parameter. -/
theorem ticksWhileBlockedByParameter : Obligations.TicksWhileBlockedByParameter := by
  unfold Obligations.TicksWhileBlockedByParameter
  intro s r hn hrun
  have henabled : s.useInput.tickEnabled = s.params.ticksWhileBlocked := by
    rw [tickEnabled_of_blocked (by simpa using hrun), useInput_params]
  refine ⟨_, step_tick hn (by rw [hrun]; nofun), tick_only_timers _, fun hp => ?_, fun hp => ?_⟩
  · rw [hp] at henabled
    rw [tick_dt_toNat henabled, tick_st_toNat henabled, useInput_dt, useInput_st]
    exact ⟨rfl, rfl⟩
  · rw [tick_of_disabled (henabled.trans hp)]
    exact ⟨useInput_dt s, useInput_st s⟩

/-- Settles O16: the host's turn is `State.cancel`, whatever Run is. -/
theorem cancelHaltsRunningAndBlocked : Obligations.CancelHaltsRunningAndBlocked := by
  unfold Obligations.CancelHaltsRunningAndBlocked
  exact fun s hn hr => step_cancel hn hr

/-- Settles O19: the code of a reason determines the reason, and no code is 0. -/
theorem outputsFollowTheState : Obligations.OutputsFollowTheState := by
  unfold Obligations.OutputsFollowTheState
  intro s
  refine ⟨decide_eq_true_iff, ⟨fun h0 h hh => ?_, haltStatus_of_not_halted⟩, fun h => haltStatus_of_halted,
    fun e e' he => ?_, rfl⟩
  · exact code_ne_zero h.reason ((haltStatus_of_halted hh).symm.trans h0)
  · rw [← reasonOfCode_code e, he, reasonOfCode_code]

/-- Settles O60: `nextInput` and `useInput` by whether something is scheduled, and `step` by what comes next. -/
theorem nextAgentIsScheduledOrAFreeDraw : Obligations.NextAgentIsScheduledOrAFreeDraw := by
  unfold Obligations.NextAgentIsScheduledOrAFreeDraw
  exact fun s => ⟨fun e rest h => ⟨nextInput_cons h, useInput_cons h⟩, fun h => ⟨nextInput_nil h, useInput_nil h⟩,
    fun hr => ⟨fun hn => step_tick hn hr, fun hn => step_cancel hn hr, fun keys rand hn => step_engine hn hr⟩⟩

end

section
/-! PROOFS. Load and reset: every component after a load (70_reset_and_hazards.md R310, R312; 10_state.md R32). -/

namespace Sys2Proof.Machine

variable {p : Params} {inputs : List Input} {rom : List Byte}

/-- Where no byte of the image stands, memory has its reset content (20_memory.md R62). -/
theorem peek_load_outside (hfits : rom.length ≤ 3584) {a : Nat} (ha : a < 0x200 ∨ 0x200 + rom.length ≤ a) :
    (State.load p inputs rom).peek a = Memory.unlisted p.font a := by
  have houtside : ¬ (0x200 ≤ a ∧ a < 0x200 + rom.length) := by omega
  rw [load_of_fits hfits, peek_pokes, dif_neg houtside]
  rfl

theorem unlisted_font (font : Vector Byte 80) {a : Nat} (ha : a < 80) : Memory.unlisted font a = font[a] := dif_pos ha

theorem unlisted_zero (font : Vector Byte 80) {a : Nat} (ha : 80 ≤ a) : Memory.unlisted font a = 0 :=
  dif_neg (Nat.not_lt.2 ha)

theorem clear_pixel (col : Fin 64) (row : Fin 32) : FrameBuffer.clear.pixel col row = false := by
  simp [FrameBuffer.pixel, FrameBuffer.clear]

end Sys2Proof.Machine

open Sys2Proof Sys2Proof.Machine

/-- Settles O32: the load stores the image over the reset contents of memory and leaves the reset state otherwise. -/
theorem loadPlacesFontAndRomOrHalts : Obligations.LoadPlacesFontAndRomOrHalts := by
  unfold Obligations.LoadPlacesFontAndRomOrHalts
  refine ⟨fun p inputs rom hfits => ?_, fun p inputs rom hlong => ?_, rfl⟩
  · have hload := load_only_mem (p := p) (inputs := inputs) hfits
    refine ⟨fun a ha => ?_, fun a ha ha' => ?_, peek_load_image hfits, fun a ha => ?_, load_pc hfits, load_run hfits,
      fun r => ?_, ?_, ?_, fun k => ?_, ?_, ?_, fun col row => ?_, hload⟩
    · rw [peek_load_outside hfits (.inl (by omega)), unlisted_font p.font ha]
    · rw [peek_load_outside hfits (.inl ha'), unlisted_zero p.font ha]
    · rw [peek_load_outside hfits (.inr ha), unlisted_zero p.font (by omega)]
    · rw [hload]; exact Vector.getElem_replicate r.isLt
    · rw [hload]; rfl
    · rw [hload]; rfl
    · rw [hload]; exact Vector.getElem_replicate k.isLt
    · rw [hload]; rfl
    · rw [hload]; rfl
    · rw [hload]; exact clear_pixel col row
  · rw [load_of_too_long hlong]

end

section
/-! PROOFS. The instructions one by one: control flow (41_control_flow.md) and registers (42_alu.md). -/

namespace Sys2Proof.Machine

variable {s t : State}

/-! ### Frames -/

/-- Writing V in the registers listed. -/
theorem onlyRegs_of {l : List Reg} (hv : t = { s with v := t.v }) (hregs : RegsUnchanged l s t) : OnlyRegs l s t :=
  ⟨hv, hregs, peek_congr (by rw [hv]) (by rw [hv])⟩

/-- An instruction that writes V alone writes the registers of its list. -/
theorem onlyRegs_effect {i : Instr} (hv : effect s i = { s with v := (effect s i).v }) :
    OnlyRegs (regsWritten s.params i) s (effect s i) :=
  onlyRegs_of hv fun _ hr => effect_reg_of_notMem hr

/-- A skip writes PC alone, and adds 2 when its condition holds (R145). -/
theorem skipsWhen_of {i : Instr} {c : Bool} {cond : Prop} (hexec : exec i s = .next (s.skipIf c))
    (hc : c = true ↔ cond) : SkipsWhen cond i s := by
  refine ⟨s.skipIf c, hexec, onlyPc_withPc s _, fun h => ?_, fun h => ?_⟩
  · rw [skipIf_pc, if_pos (hc.2 h)]
  · rw [skipIf_pc, if_neg (mt hc.1 h)]

/-! ### Sums and flags as numbers -/

theorem flagByte_toNat (b : Bool) : (flagByte b).toNat = if b = true then 1 else 0 := by cases b <;> rfl

theorem sub_toNat (a b : Byte) : (a - b).toNat = (a.toNat + 256 - b.toNat) % 256 := by
  have := b.isLt
  rw [BitVec.toNat_sub]; congr 1; omega

theorem notBorrowFlag_toNat (equalFlag : Bool) (a b : Byte) : (notBorrowFlag equalFlag a b).toNat =
    if a.toNat > b.toNat then 1 else if a.toNat < b.toNat then 0 else if equalFlag = true then 1 else 0 := by
  rw [notBorrowFlag, flagByte_toNat]
  by_cases hgt : b.toNat < a.toNat
  · simp [hgt]
  · by_cases hlt : a.toNat < b.toNat
    · simp [hgt, hlt]
    · simp [hgt, hlt]

theorem shrFlag_toNat (a : Byte) : (shrFlag a).toNat = a.toNat % 2 := by
  rw [shrFlag, flagByte_toNat, BitVec.getLsbD, Nat.testBit_zero]
  simp only [decide_eq_true_eq]
  split <;> omega

theorem shlFlag_toNat (a : Byte) : (shlFlag a).toNat = a.toNat / 128 := by
  have hlt := a.isLt
  rw [shlFlag, flagByte_toNat, BitVec.getLsbD, Nat.testBit_eq_decide_div_mod_eq]
  simp only [decide_eq_true_eq]
  split <;> omega

theorem setRegFlag_reg_vf (s : State) (x : Reg) (res flag : Byte) : (s.setRegFlag x res flag).reg .vf = flag := by
  rw [setRegFlag_reg, if_pos rfl]

theorem setRegFlag_reg_self (s : State) {x : Reg} (hx : x ≠ .vf) (res flag : Byte) :
    (s.setRegFlag x res flag).reg x = res := by
  rw [setRegFlag_reg, if_neg hx, if_pos rfl]

/-- A logic operation writes Vx, and VF under the parameter. -/
theorem onlyRegs_logicFlag (s : State) (x : Reg) (b : Byte) :
    OnlyRegs (if s.params.logicResetsVf = true then [x, .vf] else [x]) s (s.setReg x b).logicFlag := by
  refine onlyRegs_of (by rw [logicFlag_only_v]; rfl) fun r hr => ?_
  by_cases hp : s.params.logicResetsVf = true
  · rw [if_pos hp, List.mem_cons, List.mem_singleton, not_or] at hr
    simp [logicFlag_reg, hr.1, hr.2]
  · rw [if_neg hp, List.mem_singleton] at hr
    simp [logicFlag_reg, hp, hr]

/-- The logic operations' result stands in Vx unless VF is reset over it. -/
theorem logicFlag_reg_self {x : Reg} (h : s.params.logicResetsVf = false ∨ x ≠ .vf) (b : Byte) :
    (s.setReg x b).logicFlag.reg x = b := by
  have hkeep : ¬ ((s.setReg x b).params.logicResetsVf = true ∧ x = .vf) := by
    rintro ⟨hp, hx⟩
    rcases h with h | h
    · rw [setReg_params, h] at hp; cases hp
    · exact h hx
  rw [logicFlag_reg, if_neg hkeep, reg_setReg_self]

theorem logicFlag_reg_vf (h : s.params.logicResetsVf = true) : s.logicFlag.reg .vf = 0 := by
  rw [logicFlag_reg, if_pos ⟨h, rfl⟩]

/-! ### The call stack -/

theorem exec_call (nnn : Addr) (h : s.sp.val < 16) : exec (.call nnn) s = .next { s with
    pc := zext nnn, stack := s.stack.set s.sp.val s.pc, sp := ⟨s.sp.val + 1, by omega⟩ } := by
  rcases pushPc_cases s with ⟨h16, -⟩ | ⟨_, hpush⟩
  · rw [h16] at h; exact absurd h (by decide)
  · simp only [exec, execCall, hpush]

theorem exec_ret (h : 0 < s.sp.val) : exec .ret s = .next { s with
    pc := s.stack[s.sp.val - 1]'(by omega), sp := ⟨s.sp.val - 1, by omega⟩ } := by
  rcases popPc_cases s with ⟨h0, -⟩ | ⟨_, hpop⟩
  · rw [h0] at h; exact absurd h (by decide)
  · simp only [exec, execRet, hpop]

/-- The target of Bnnn does not wrap (R144). -/
theorem jpV0Target_toNat (nnn : Addr) (s : State) : (jpV0Target nnn s).toNat =
    nnn.toNat + if s.params.bnnnAddsV0 = true then (s.reg 0).toNat else 0 := by
  have hnnn := nnn.isLt
  have hv0 := (s.reg 0).isLt
  unfold jpV0Target
  split
  · rw [BitVec.toNat_add, zext_toNat, BitVec.toNat_setWidth]; omega
  · rw [zext_toNat, Nat.add_zero]

end Sys2Proof.Machine

open Sys2Proof Sys2Proof.Machine

/-- Settles O44: the three operations share the write of Vx and the reset of VF after it, and differ in the bits. -/
theorem logicOperationsActBitByBit : Obligations.LogicOperationsActBitByBit := by
  unfold Obligations.LogicOperationsActBitByBit
  intro x y s i f hi
  have hresult : ∃ res : Byte, exec i s = .next (s.setReg x res).logicFlag ∧
      ∀ b, res.getLsbD b = f ((s.reg x).getLsbD b) ((s.reg y).getLsbD b) := by
    rcases hi with ⟨rfl, rfl⟩ | ⟨rfl, rfl⟩ | ⟨rfl, rfl⟩
    · exact ⟨_, exec_of_passes rfl, fun _ => BitVec.getLsbD_or⟩
    · exact ⟨_, exec_of_passes rfl, fun _ => BitVec.getLsbD_and⟩
    · exact ⟨_, exec_of_passes rfl, fun _ => BitVec.getLsbD_xor⟩
  obtain ⟨res, hexec, hbits⟩ := hresult
  refine ⟨_, hexec, onlyRegs_logicFlag s x res, fun h b _ => ?_, fun h => logicFlag_reg_vf h⟩
  rw [logicFlag_reg_self h, hbits]

/-- Settles O46: the difference and the flag of `setRegFlag`, as numbers. -/
theorem subtractionsWriteDifferenceThenNotBorrow : Obligations.SubtractionsWriteDifferenceThenNotBorrow := by
  unfold Obligations.SubtractionsWriteDifferenceThenNotBorrow
  rintro x y s i a b (⟨rfl, rfl, rfl⟩ | ⟨rfl, rfl, rfl⟩)
  all_goals
    refine ⟨_, exec_of_passes rfl, onlyRegs_effect rfl, fun hx => ?_, ?_⟩
    · rw [effect, setRegFlag_reg_self s hx, sub_toNat]
    · rw [effect, setRegFlag_reg_vf, notBorrowFlag_toNat]

/-- Settles O45: the sum and the carry of `setRegFlag`, as numbers. -/
theorem addWritesSumThenCarry : Obligations.AddWritesSumThenCarry := by
  unfold Obligations.AddWritesSumThenCarry
  intro x y s
  refine ⟨_, exec_of_passes rfl, onlyRegs_effect rfl, fun hx => ?_, ?_⟩
  · rw [effect, setRegFlag_reg_self s hx, BitVec.toNat_add]
  · rw [effect, setRegFlag_reg_vf, carryFlag, flagByte_toNat]
    simp only [decide_eq_true_eq, gt_iff_lt]

/-- Settles O47: the shifts and the bits they shift out, as quotients and remainders. -/
theorem shiftsWriteResultThenTheBitShiftedOut : Obligations.ShiftsWriteResultThenTheBitShiftedOut := by
  unfold Obligations.ShiftsWriteResultThenTheBitShiftedOut
  intro x y s
  refine ⟨⟨_, exec_of_passes rfl, onlyRegs_effect rfl, fun hx => ?_, ?_⟩,
    ⟨_, exec_of_passes rfl, onlyRegs_effect rfl, fun hx => ?_, ?_⟩⟩
  · rw [effect, setRegFlag_reg_self s hx, BitVec.toNat_ushiftRight, Nat.shiftRight_eq_div_pow, Nat.pow_one]
  · rw [effect, setRegFlag_reg_vf, shrFlag_toNat]
  · rw [effect, setRegFlag_reg_self s hx, BitVec.toNat_shiftLeft, Nat.shiftLeft_eq, Nat.pow_one]
  · rw [effect, setRegFlag_reg_vf, shlFlag_toNat]

/-- Settles O42: one register write, of the wrapped sum. -/
theorem addImmediateWrapsAndLeavesVf : Obligations.AddImmediateWrapsAndLeavesVf := by
  unfold Obligations.AddImmediateWrapsAndLeavesVf
  intro x kk s
  refine ⟨_, exec_of_passes rfl, onlyRegs_setReg s x _, ?_⟩
  rw [effect, reg_setReg_self, BitVec.toNat_add]

/-- Settles O43: one register write each. -/
theorem copyRandomAndTimerReadWriteOneRegister : Obligations.CopyRandomAndTimerReadWriteOneRegister := by
  unfold Obligations.CopyRandomAndTimerReadWriteOneRegister
  intro x y kk s
  refine ⟨⟨_, exec_of_passes rfl, onlyRegs_setReg s x _, reg_setReg_self s x _⟩,
    ⟨_, exec_of_passes rfl, onlyRegs_setReg s x _, fun b _ => ?_⟩,
    ⟨_, exec_of_passes rfl, onlyRegs_setReg s x _, reg_setReg_self s x _⟩⟩
  rw [effect, reg_setReg_self, BitVec.getLsbD_and]

/-- Settles O34: SYS is no change, and QUIT's own check always fails. -/
theorem sysDoesNothingAndQuitHalts : Obligations.SysDoesNothingAndQuitHalts := by
  unfold Obligations.SysDoesNothingAndQuitHalts
  refine ⟨fun nnn s => exec_of_passes rfl, fun op s => ?_⟩
  obtain ⟨t, ht, hfault⟩ := exec_faultsWith (s := s) (i := .quit op) rfl
  obtain ⟨rfl, -, -⟩ := id hfault
  exact ⟨_, ht, hfault, rfl⟩

/-- Settles O36: the push below depth 16, and the fault there. -/
theorem callPushesThePostFetchPc : Obligations.CallPushesThePostFetchPc := by
  unfold Obligations.CallPushesThePostFetchPc
  intro nnn s
  refine ⟨fun hsp => ⟨_, exec_call nnn hsp, rfl, fun _ _ => rfl, fun _ => rfl, zext_toNat nnn, rfl, fun k => ?_⟩,
    fun hsp => exec_faultsWith (if_pos hsp)⟩
  simp only [Fin.getElem_fin, Vector.getElem_set, eq_comm]

/-- Settles O37: the pop above depth 0, and the fault there. -/
theorem returnPopsThePc : Obligations.ReturnPopsThePc := by
  unfold Obligations.ReturnPopsThePc
  intro s
  refine ⟨fun k hsp => ⟨_, exec_ret (by omega), ?_, by simp only; omega, fun _ _ => rfl, fun _ => rfl⟩,
    fun hsp => exec_faultsWith (if_pos hsp)⟩
  simp only [hsp, Nat.add_sub_cancel, Fin.getElem_fin]

/-- Settles O38: RET takes from slot SP − 1 what CALL put in slot SP. -/
theorem returnUndoesCall : Obligations.ReturnUndoesCall := by
  unfold Obligations.ReturnUndoesCall
  intro nnn s t pc' hsp hcall
  rw [exec_call nnn hsp] at hcall
  cases hcall
  refine ⟨_, exec_ret (Nat.succ_pos _), ?_⟩
  simp only [Nat.add_sub_cancel, Vector.getElem_set_self]

/-- Settles O39: one write of PC, with a sum that does not wrap. -/
theorem indexedJumpAddsV0ByParameter : Obligations.IndexedJumpAddsV0ByParameter := by
  unfold Obligations.IndexedJumpAddsV0ByParameter
  exact fun nnn s => ⟨_, exec_of_passes rfl, onlyPc_withPc s _, jpV0Target_toNat nnn s⟩

/-- Settles O40: four `skipIf`s. -/
theorem registerSkipsFollowTheirConditions : Obligations.RegisterSkipsFollowTheirConditions := by
  unfold Obligations.RegisterSkipsFollowTheirConditions
  exact fun x y kk s => ⟨skipsWhen_of (exec_of_passes rfl) beq_iff_eq, skipsWhen_of (exec_of_passes rfl) bne_iff_ne,
    skipsWhen_of (exec_of_passes rfl) beq_iff_eq, skipsWhen_of (exec_of_passes rfl) bne_iff_ne⟩

end

section
/-! PROOFS. The instructions one by one: the index register (43_index_memory.md), CLS (44_display.md), keys and timers
(45_timers_input.md). -/

namespace Sys2Proof.Machine

variable {s : State}

theorem glyphAddr_toNat (index : FontIndex) (b : Byte) : (glyphAddr index b).toNat = 5 * glyphNumber index b := by
  have hle : glyphNumber index b < 256 := by
    have := b.isLt
    cases index <;> simp only [glyphNumber] <;> omega
  rw [glyphAddr, BitVec.toNat_ofNat]; omega

/-- A register value that is a key's number names that key (R250). -/
theorem keyIndex_eq_some {b : Byte} {k : Reg} (h : b.toNat = k.val) : keyIndex b = some k := by
  rw [keyIndex, dif_pos (h ▸ k.isLt)]
  exact congrArg some (Fin.ext h)

/-- Ex9E, where Vx names the key k. -/
theorem exec_skpVx {x k : Reg} (h : (s.reg x).toNat = k.val) : exec (.skpVx x) s = .next (s.skipIf s.keyIn[k]) := by
  simp only [exec, execSkpVx, keyIndex_eq_some h]

/-- ExA1, where Vx names the key k. -/
theorem exec_sknpVx {x k : Reg} (h : (s.reg x).toNat = k.val) :
    exec (.sknpVx x) s = .next (s.skipIf (!s.keyIn[k])) := by
  simp only [exec, execSknpVx, keyIndex_eq_some h]

theorem keyWait_pressed {k : Reg} (h : lowestKey s.keyIn = some k) (x : Reg) :
    s.keyWait x = s.setReg x (BitVec.ofNat 8 k.val) := by
  unfold State.keyWait; rw [h]

theorem keyWait_none (h : lowestKey s.keyIn = none) (x : Reg) : s.keyWait x = { s with run := .blocked x } := by
  unfold State.keyWait; rw [h]

end Sys2Proof.Machine

open Sys2Proof Sys2Proof.Machine

/-- Settles O49: one write of I each. -/
theorem indexAddAndGlyphAddress : Obligations.IndexAddAndGlyphAddress := by
  unfold Obligations.IndexAddAndGlyphAddress
  intro x s
  refine ⟨⟨_, exec_of_passes rfl, rfl, regsUnchanged_withI s _, memUnchanged_withI s _, ?_⟩,
    ⟨_, exec_of_passes rfl, rfl, regsUnchanged_withI s _, memUnchanged_withI s _, fun hp => ?_, fun hp => ?_⟩⟩
  · have hv := (s.reg x).isLt
    rw [effect, BitVec.toNat_add, BitVec.toNat_setWidth]; omega
  · rw [effect, glyphAddr_toNat, hp]; rfl
  · rw [effect, glyphAddr_toNat, hp]; rfl

/-- Settles O54: one write of FB. -/
theorem clearTurnsEveryPixelOff : Obligations.ClearTurnsEveryPixelOff := by
  unfold Obligations.ClearTurnsEveryPixelOff
  exact fun s => ⟨_, exec_of_passes rfl, rfl, fun _ _ => rfl, fun _ => rfl, clear_pixel⟩

/-- Settles O57: the two skips on a key that Vx names, and the fault where it names none. -/
theorem keySkipsFollowTheSample : Obligations.KeySkipsFollowTheSample := by
  unfold Obligations.KeySkipsFollowTheSample
  intro x s
  refine ⟨fun k hk => ⟨skipsWhen_of (exec_skpVx hk) Iff.rfl, skipsWhen_of (exec_sknpVx hk) ?_⟩,
    fun hx => ⟨exec_faultsWith (if_pos hx), exec_faultsWith (if_pos hx)⟩⟩
  rw [Bool.not_eq_true']

/-- Settles O58: the key wait is a register write or BLOCKED. -/
theorem keyWaitCompletesOrBlocks : Obligations.KeyWaitCompletesOrBlocks := by
  unfold Obligations.KeyWaitCompletesOrBlocks
  intro x s
  have hexec : exec (.ldVxK x) s = .next (s.keyWait x) := exec_of_passes rfl
  refine ⟨fun k hk => ?_, fun hnone => ?_⟩
  · rw [hexec, keyWait_pressed (lowestKey_eq_some hk)]
    refine ⟨_, rfl, onlyRegs_setReg s x _, ?_⟩
    rw [reg_setReg_self, ofNat_key_toNat]
  · rw [hexec, keyWait_none (lowestKey_eq_none hnone)]

/-- Settles O59: one write of a timer each; soundActive reads ST. -/
theorem timerLoadsSetOneTimer : Obligations.TimerLoadsSetOneTimer := by
  unfold Obligations.TimerLoadsSetOneTimer
  exact fun x s => ⟨⟨_, exec_of_passes rfl, rfl, fun _ _ => rfl, fun _ => rfl, rfl⟩,
    ⟨_, exec_of_passes rfl, rfl, fun _ _ => rfl, fun _ => rfl, rfl, decide_eq_true_iff⟩⟩

end

section
/-! PROOFS. Memory transfer (43_index_memory.md): Fx33, Fx55 and Fx65 (R204 to R206), and what the next fetch reads of a
store (20_memory.md R74). -/

namespace Sys2Proof.Machine

variable {s t : State}

theorem effAddr_eq_add (s : State) (k : Nat) : s.effAddr k = s.effAddr 0 + k := rfl

theorem advanceI_i_toNat (s : State) (x : Reg) : (s.advanceI x).i.toNat =
    if s.params.ldstIncrementsI = true then (s.i.toNat + x.val + 1) % 0x10000 else s.i.toNat := by
  unfold State.advanceI
  split
  · simp only [BitVec.toNat_add, BitVec.toNat_ofNat]; omega
  · rfl

/-! ### The decimal digits -/

/-- A digit of a byte, or any quotient of one, fits in a byte. -/
theorem ofNat_digit_toNat {b : Byte} {n : Nat} (h : n ≤ b.toNat) : (BitVec.ofNat 8 n).toNat = n := by
  have := b.isLt
  rw [BitVec.toNat_ofNat]; omega

/-- Memory after Fx33: the digits at I, I + 1 and I + 2, and what was there elsewhere. -/
theorem peek_bcd (s : State) (b : Byte) (a : Nat) : (s.pokes (s.effAddr 0) (bcdDigits b)).peek a =
    if a = s.effAddr 0 then BitVec.ofNat 8 (b.toNat / 100)
    else if a = s.effAddr 1 then BitVec.ofNat 8 (b.toNat / 10 % 10)
    else if a = s.effAddr 2 then BitVec.ofNat 8 (b.toNat % 10)
    else s.peek a := by
  have h1 : s.effAddr 1 = s.effAddr 0 + 1 := effAddr_eq_add s 1
  have h2 : s.effAddr 2 = s.effAddr 0 + 1 + 1 := effAddr_eq_add s 2
  simp only [bcdDigits, State.pokes, peek_poke, h1, h2]
  split
  · rw [if_neg (by omega), if_neg (by omega)]
  · split
    · rw [if_neg (by omega)]
    · rfl

/-! ### The registers -/

theorem getElem_regsUpTo (s : State) (x : Reg) {k : Nat} (hk : k < (s.regsUpTo x).length) :
    (s.regsUpTo x)[k] = s.reg (Fin.ofNat 16 k) := by
  have hlt : k < 16 := by rw [regsUpTo_length] at hk; omega
  simp [State.regsUpTo, State.reg, Fin.ofNat, Nat.mod_eq_of_lt hlt]

/-- Memory after Fx55: V0 to Vx from I on, and what was there elsewhere. -/
theorem peek_dump (s : State) (x : Reg) (a : Nat) : (s.pokes (s.effAddr 0) (s.regsUpTo x)).peek a =
    if s.effAddr 0 ≤ a ∧ a ≤ s.effAddr x.val then s.reg (Fin.ofNat 16 (a - s.effAddr 0)) else s.peek a := by
  have hlen := regsUpTo_length s x
  have hlast := effAddr_eq_add s x.val
  rw [peek_pokes]
  by_cases h : s.effAddr 0 ≤ a ∧ a ≤ s.effAddr x.val
  · rw [dif_pos (by omega), if_pos h, getElem_regsUpTo]
  · rw [dif_neg (by omega), if_neg h]

/-! ### The three instructions -/

theorem exec_ldBVx {x : Reg} (h : s.effAddr 2 ≤ 0xFFF) :
    exec (.ldBVx x) s = .next (s.pokes (s.effAddr 0) (bcdDigits (s.reg x))) :=
  exec_of_passes (if_neg (Nat.not_lt.2 h))

theorem exec_ldMemVx {x : Reg} (h : s.effAddr x.val ≤ 0xFFF) :
    exec (.ldMemVx x) s = .next ((s.pokes (s.effAddr 0) (s.regsUpTo x)).advanceI x) :=
  exec_of_passes (if_neg (Nat.not_lt.2 h))

theorem exec_ldVxMem {x : Reg} (h : s.effAddr x.val ≤ 0xFFF) :
    exec (.ldVxMem x) s = .next ((s.loadRegs (x.val + 1)).advanceI x) :=
  exec_of_passes (if_neg (Nat.not_lt.2 h))

/-- A fetch inside memory sees what memory holds. -/
theorem fetchSees_of_peek {byte : Nat → Byte} (hp : t.pc.toNat + 1 ≤ 0xFFF) (h : ∀ a, t.peek a = byte a) :
    FetchSees byte t := by
  rw [FetchSees, fetch_inside hp, h, h]

end Sys2Proof.Machine

open Sys2Proof Sys2Proof.Machine

/-- Settles O50: three bytes are stored, which `peek_bcd` reads back. -/
theorem bcdStoresThreeDigits : Obligations.BcdStoresThreeDigits := by
  unfold Obligations.BcdStoresThreeDigits
  intro x s
  refine ⟨fun h => ⟨_, exec_ldBVx h, pokes_only_mem _ s _, fun r _ => reg_congr (pokes_v s _ _) r, ?_, ?_, ?_, ?_⟩,
    fun h => exec_faultsWith (if_pos h)⟩
  · rw [peek_bcd, if_pos rfl, ofNat_digit_toNat (Nat.div_le_self _ _)]
  · rw [peek_bcd, if_neg (by simp [State.effAddr]), if_pos rfl, ofNat_digit_toNat (b := s.reg x) (by omega)]
  · rw [peek_bcd, if_neg (by simp [State.effAddr]), if_neg (by simp [State.effAddr]), if_pos rfl,
      ofNat_digit_toNat (Nat.mod_le _ _)]
  · intro a ha
    have h1 := effAddr_eq_add s 1
    have h2 := effAddr_eq_add s 2
    rw [peek_bcd, if_neg (by omega), if_neg (by omega), if_neg (by omega)]

/-- Settles O51: V0 to Vx are stored, which `peek_dump` reads back; then I moves on. -/
theorem registerDumpStoresV0ToVx : Obligations.RegisterDumpStoresV0ToVx := by
  unfold Obligations.RegisterDumpStoresV0ToVx
  intro x s
  refine ⟨fun h => ⟨_, exec_ldMemVx h, ?_, fun r _ => reg_congr (pokes_v s _ _) r, fun k hk => ?_, fun a ha => ?_, ?_⟩,
    fun h => exec_faultsWith (if_pos h)⟩
  · rw [pokes_only_mem]; rfl
  · have hk' : k.val ≤ x.val := hk
    have hsub : s.effAddr k.val - s.effAddr 0 = k.val := Nat.add_sub_cancel_left (s.effAddr 0) k.val
    have hin : s.effAddr 0 ≤ s.effAddr k.val ∧ s.effAddr k.val ≤ s.effAddr x.val := by unfold State.effAddr; omega
    refine (peek_dump s x _).trans ?_
    rw [if_pos hin, hsub, Fin.ofNat_val_eq_self]
  · have hlast := effAddr_eq_add s x.val
    exact (peek_dump s x a).trans (if_neg (by omega))
  · rw [advanceI_i_toNat, pokes_params, pokes_i]

/-- Settles O52: `loadRegs_reg` says what each register holds; then I moves on. -/
theorem registerLoadFillsV0ToVx : Obligations.RegisterLoadFillsV0ToVx := by
  unfold Obligations.RegisterLoadFillsV0ToVx
  intro x s
  have hreg : ∀ k : Reg, ((s.loadRegs (x.val + 1)).advanceI x).reg k =
      if k.val < x.val + 1 then s.peek (s.effAddr k.val) else s.reg k := loadRegs_reg s (x.val + 1) (by omega)
  refine ⟨fun h => ⟨_, exec_ldVxMem h, ?_, peek_congr (loadRegs_mem s _) (loadRegs_params s _), fun k hk => ?_,
    fun k hk => ?_, ?_⟩, fun h => exec_faultsWith (if_pos h)⟩
  · rw [loadRegs_only_v]; rfl
  · rw [hreg, if_pos (Nat.lt_succ_of_le hk)]
  · rw [hreg, if_neg (Nat.not_lt.2 hk)]
  · rw [advanceI_i_toNat, loadRegs_params, loadRegs_i]

/-- Settles O53: neither store moves PC, and the fetch reads memory as the store left it. -/
theorem storeIsSeenByTheNextFetch : Obligations.StoreIsSeenByTheNextFetch := by
  unfold Obligations.StoreIsSeenByTheNextFetch
  intro x s hp
  refine ⟨fun h => ⟨_, exec_ldMemVx h, pokes_pc s _ _, fetchSees_of_peek ?_ (peek_dump s x)⟩,
    fun h => ⟨_, exec_ldBVx h, pokes_pc s _ _, fetchSees_of_peek ?_ (peek_bcd s (s.reg x))⟩⟩
  · rw [advanceI_pc, pokes_pc]; exact hp
  · rw [pokes_pc]; exact hp

end

section
/-! PROOFS. The draw Dxyn (44_display.md R231 to R233): a sprite as the list of the pixels its set bits land on, which
are all different. -/

namespace Sys2Proof.Machine

variable {s t : State}

/-! ### Pixels -/

theorem toggle_pixel (fb : FrameBuffer) (col c : Fin 64) (row r : Fin 32) :
    (fb.toggle col row).pixel c r = if (c, r) = (col, row) then !fb.pixel c r else fb.pixel c r := by
  simp only [FrameBuffer.pixel, FrameBuffer.toggle, Fin.getElem_fin, Vector.getElem_set, Prod.mk.injEq]
  by_cases hc : c = col
  · subst hc
    by_cases hr : r = row
    · subst hr; simp
    · simp [hr, Fin.val_inj, Ne.symm hr]
  · simp [hc, Fin.val_inj, Ne.symm hc]

theorem fb_ext {fb fb' : FrameBuffer} (h : ∀ col row, fb.pixel col row = fb'.pixel col row) : fb = fb' :=
  Vector.ext fun i hi => Vector.ext fun j hj => h ⟨i, hi⟩ ⟨j, hj⟩

/-- The blit of a list of pixels, in order. -/
def xorPixels (l : List (Fin 64 × Fin 32)) (d : FrameBuffer × Bool) : FrameBuffer × Bool :=
  l.foldl (fun d p => xorPixel p.1 p.2 d) d

/-- Where no pixel comes twice, each pixel of the list is inverted once, and no other. -/
theorem xorPixels_pixel {l : List (Fin 64 × Fin 32)} (hl : l.Nodup) (d : FrameBuffer × Bool) (c : Fin 64) (r : Fin 32) :
    (xorPixels l d).1.pixel c r = if (c, r) ∈ l then !d.1.pixel c r else d.1.pixel c r := by
  induction l generalizing d with
  | nil => rfl
  | cons p l ih =>
    obtain ⟨hp, hl⟩ := List.nodup_cons.1 hl
    have hcons := ih hl (xorPixel p.1 p.2 d)
    refine hcons.trans ?_
    rw [xorPixel, toggle_pixel]
    by_cases hmem : (c, r) ∈ l
    · have hne : (c, r) ≠ p := fun e => hp (e ▸ hmem)
      simp [hmem, hne]
    · by_cases hpe : (c, r) = p <;> simp [hmem, hpe, hp]

/-- Where no pixel comes twice, the blit collides exactly when a pixel of the list was on before it. -/
theorem xorPixels_collision {l : List (Fin 64 × Fin 32)} (hl : l.Nodup) (d : FrameBuffer × Bool) :
    (xorPixels l d).2 = true ↔ d.2 = true ∨ ∃ p ∈ l, d.1.pixel p.1 p.2 = true := by
  induction l generalizing d with
  | nil => simp [xorPixels]
  | cons p l ih =>
    obtain ⟨hp, hl⟩ := List.nodup_cons.1 hl
    have hsame : ∀ q ∈ l, (xorPixel p.1 p.2 d).1.pixel q.1 q.2 = d.1.pixel q.1 q.2 := by
      intro q hq
      have hne : (q.1, q.2) ≠ (p.1, p.2) := fun e => hp (show p ∈ l from (show q = p from e) ▸ hq)
      rw [xorPixel, toggle_pixel, if_neg hne]
    have hrest : (∃ q ∈ l, (xorPixel p.1 p.2 d).1.pixel q.1 q.2 = true) ↔ ∃ q ∈ l, d.1.pixel q.1 q.2 = true :=
      exists_congr fun q => and_congr_right fun hq => by rw [hsame q hq]
    refine (ih hl (xorPixel p.1 p.2 d)).trans ?_
    rw [hrest]
    simp only [xorPixel, Bool.or_eq_true, List.mem_cons, exists_eq_or_imp, or_assoc]

/-! ### The pixels of a sprite -/

/-- The pixels of one sprite row, left to right. -/
def spriteRowPixels (x0 : Byte) (py : Fin 32) (row : Byte) : List (Fin 64 × Fin 32) :=
  ((List.range 8).filter (spriteBit row)).map fun c => (spriteCol x0 c, py)

/-- The pixels of the sprite of n rows at I, row by row. -/
def spritePixels (s : State) (x0 y0 : Byte) (n : Nat) : List (Fin 64 × Fin 32) :=
  (List.range n).flatMap fun r => spriteRowPixels x0 (spriteRow y0 r) (s.peek (s.effAddr r))

theorem drawRow_eq (x0 : Byte) (py : Fin 32) (row : Byte) (d : FrameBuffer × Bool) :
    drawRow x0 py row d = xorPixels (spriteRowPixels x0 py row) d := by
  rw [drawRow, xorPixels, spriteRowPixels, List.foldl_map, List.foldl_filter]

theorem drawRows_eq (s : State) (x0 y0 : Byte) (n : Nat) (d : FrameBuffer × Bool) :
    drawRows s x0 y0 n d = xorPixels (spritePixels s x0 y0 n) d := by
  simp only [drawRows, drawRow_eq]
  exact (List.foldl_flatMap ..).symm

theorem mem_spritePixels (s : State) (x0 y0 : Byte) (n : Nat) (col : Fin 64) (row : Fin 32) :
    (col, row) ∈ spritePixels s x0 y0 n ↔ SpriteCovers s x0.toNat y0.toNat n col row := by
  simp only [spritePixels, spriteRowPixels, SpriteCovers, List.mem_flatMap, List.mem_map, List.mem_filter,
    List.mem_range, Prod.mk.injEq, Fin.ext_iff, spriteCol, spriteRow, spriteBit, Fin.val_ofNat, State.effAddr]
  constructor
  · rintro ⟨r, hr, c, ⟨hc, hbit⟩, hcol, hrow⟩
    exact ⟨r, c, hr, hc, hbit, hcol, hrow⟩
  · rintro ⟨r, c, hr, hc, hbit, hcol, hrow⟩
    exact ⟨r, hr, c, ⟨hc, hbit⟩, hcol, hrow⟩

/-- The columns and rows of a sprite no higher than the screen fall on different columns and rows, wrapped or not. -/
theorem nodup_spritePixels (s : State) (x0 y0 : Byte) {n : Nat} (hn : n ≤ 32) : (spritePixels s x0 y0 n).Nodup := by
  rw [spritePixels, List.nodup_flatMap]
  constructor
  · intro r _
    refine List.Nodup.map_on (fun c hc c' hc' e => ?_) (List.nodup_range.filter _)
    have hlt := List.mem_range.1 (List.mem_filter.1 hc).1
    have hlt' := List.mem_range.1 (List.mem_filter.1 hc').1
    have hcol : (x0.toNat + c) % 64 = (x0.toNat + c') % 64 := congrArg (fun p => p.1.val) e
    omega
  · refine List.nodup_range.pairwise_of_forall_ne fun r hr r' hr' hne => ?_
    rw [List.mem_range] at hr hr'
    intro p hp hp'
    simp only [spriteRowPixels, List.mem_map] at hp hp'
    obtain ⟨_, _, rfl⟩ := hp
    obtain ⟨_, _, e⟩ := hp'
    have hrow : (y0.toNat + r') % 32 = (y0.toNat + r) % 32 := congrArg (fun p => p.2.val) e
    omega

/-! ### The draw -/

section draw

variable (s : State) (x y : Reg) (n : Nibble)

/-- A draw inverts the pixels that its sprite covers. -/
theorem draw_pixel (col : Fin 64) (row : Fin 32) : (effect s (.drw x y n)).fb.pixel col row =
    if (col, row) ∈ spritePixels s (s.reg x) (s.reg y) n.toNat then !s.fb.pixel col row else s.fb.pixel col row := by
  have hn : n.toNat ≤ 32 := by have := n.isLt; omega
  simp only [effect, drawRows_eq]
  exact xorPixels_pixel (nodup_spritePixels s _ _ hn) (s.fb, false) col row

/-- A draw leaves in VF whether its sprite covered a pixel that was on. -/
theorem draw_vf : (effect s (.drw x y n)).reg .vf =
    collisionFlag (drawRows s (s.reg x) (s.reg y) n.toNat (s.fb, false)).2 := reg_setReg_self s .vf _

theorem draw_collision : (drawRows s (s.reg x) (s.reg y) n.toNat (s.fb, false)).2 = true ↔
    ∃ col row, SpriteCovers s (s.reg x).toNat (s.reg y).toNat n.toNat col row ∧ s.fb.pixel col row = true := by
  have hn : n.toNat ≤ 32 := by have := n.isLt; omega
  rw [drawRows_eq, xorPixels_collision (nodup_spritePixels s _ _ hn)]
  simp only [Bool.false_eq_true, false_or, Prod.exists, mem_spritePixels]

end draw

/-- A sprite covers the same pixels in two states with the same memory and I. -/
theorem spriteCovers_congr (hi : t.i = s.i) (hmem : MemUnchanged s t) (x0 y0 n : Nat) (col : Fin 64) (row : Fin 32) :
    SpriteCovers t x0 y0 n col row ↔ SpriteCovers s x0 y0 n col row := by
  simp only [SpriteCovers, hi, hmem _]

end Sys2Proof.Machine

open Sys2Proof Sys2Proof.Machine

/-- Settles O55: the sprite's pixels are all different, so each is inverted once and its old value decides the
collision. -/
theorem drawXorsTheSpriteAndReportsCollision : Obligations.DrawXorsTheSpriteAndReportsCollision := by
  unfold Obligations.DrawXorsTheSpriteAndReportsCollision
  intro x y n s
  refine ⟨fun h => ?_, fun hpos hbeyond => exec_faultsWith (if_pos ⟨hpos, hbeyond⟩)⟩
  have hpasses : ¬ (0 < n.toNat ∧ 0xFFF < s.i.toNat + n.toNat - 1) := by omega
  refine ⟨_, exec_of_passes (if_neg hpasses), rfl, fun r hr => effect_reg_of_notMem hr, fun _ => rfl,
    fun col row => ⟨fun hc => ?_, fun hc => ?_⟩, fun hon => ?_, fun hoff => ?_⟩
  · rw [draw_pixel, if_pos ((mem_spritePixels ..).2 hc)]
  · rw [draw_pixel, if_neg (mt (mem_spritePixels ..).1 hc)]
  · rw [draw_vf, (draw_collision s x y n).2 hon]; rfl
  · have hnone : (drawRows s (s.reg x) (s.reg y) n.toNat (s.fb, false)).2 = false := by
      rw [← Bool.not_eq_true, draw_collision]
      rintro ⟨col, row, hc, hon⟩
      rw [hoff col row hc] at hon; cases hon
    rw [draw_vf, hnone]; rfl

/-- Settles O56: the second draw covers the pixels that the first one covered, and inverts them back. -/
theorem drawingTwiceRestoresTheFramebuffer : Obligations.DrawingTwiceRestoresTheFramebuffer := by
  unfold Obligations.DrawingTwiceRestoresTheFramebuffer
  intro x y n s hx hy hinside
  obtain ⟨t, hexec, ht, hregs, hmem, hpixels, -, -⟩ := (drawXorsTheSpriteAndReportsCollision x y n s).1 hinside
  have hi : t.i = s.i := by rw [ht]
  obtain ⟨u, hexec', -, -, -, hpixels', hon, hoff⟩ :=
    (drawXorsTheSpriteAndReportsCollision x y n t).1 (by rwa [hi])
  simp only [hregs x (by simpa using hx), hregs y (by simpa using hy), spriteCovers_congr hi hmem] at hpixels' hon hoff
  refine ⟨t, u, hexec, hexec', fb_ext fun col row => ?_, fun hvf => ?_, ?_⟩
  · by_cases hc : SpriteCovers s (s.reg x).toNat (s.reg y).toNat n.toNat col row
    · rw [(hpixels' col row).1 hc, (hpixels col row).1 hc, Bool.not_not]
    · rw [(hpixels' col row).2 hc, (hpixels col row).2 hc]
  · by_contra hnone
    have hzero : u.reg .vf = 0 := by
      refine hoff fun col row hc => ?_
      by_contra htOn
      rw [Bool.not_eq_false] at htOn
      have hsOff : s.fb.pixel col row = false := by simpa [(hpixels col row).1 hc] using htOn
      exact hnone ⟨col, row, hsOff, htOn⟩
    rw [hzero] at hvf; exact absurd hvf (by decide)
  · rintro ⟨col, row, hsOff, htOn⟩
    refine hon ⟨col, row, ?_, htOn⟩
    by_contra hc
    rw [(hpixels col row).2 hc, hsOff] at htOn; cases htOn

end
